-- ==== Sys2Proof/Word.lean ====
section
/-! DEFINITION. The word types of the block (spec/00_scope.md R10, R11): plain bit vectors, every value unsigned. -/

namespace Sys2Proof

/-- A byte of a message, of host memory or of slot storage. -/
abbrev Byte := BitVec 8

/-- A 32-bit word: a command word, a message word, a working word (R10). -/
abbrev Word := BitVec 32

/-- A 64-bit register: ARG_A, ARG_B, RESULT, a bit length, a host address (R20, R10). -/
abbrev Dword := BitVec 64

/-- The value that names a Message to the host (R10, R15). -/
abbrev Handle := BitVec 32

end Sys2Proof
end

