-- ==== Sys2Proof/Config.lean ====
section
/-! DEFINITION. What an instantiation of the block fixes (spec/00_scope.md R9) and the free values of the model
(spec/93_implementation_defined.md U3, and one value the spec does not state). -/

namespace Sys2Proof

/-- The implementation parameters of R9, which "the model takes … as arguments". They are plain data, held in the
state's field `cfg` and written by no step (log entry 1), so a statement over all states holds of every instance. -/
structure Config where
  /-- `DEV_BASE`: host address of the register block; OPEN (platform). -/
  devBase : Dword
  /-- `HOST_ADDR_BITS`: width of the host addresses the bus-master port reads. -/
  hostAddrBits : Nat
  /-- `MAX_MESSAGES`: number of message slots. -/
  maxMessages : Nat
  /-- `MAX_RAW_BYTES`: bytes of raw-content storage per slot. -/
  maxRawBytes : Nat
  /-- `MAX_PAD_BYTES`: bytes of padded-buffer storage per slot. -/
  maxPadBytes : Nat
  deriving DecidableEq, Repr

/-- The reference values of R9 (D4). `DEV_BASE` has none: OPEN; 0 here is a DESIGN CHOICE (log entry 2, unsafe only for
a claim about absolute host addresses from reset). -/
def Config.reference : Config where
  devBase := 0
  hostAddrBits := 64
  maxMessages := 8
  maxRawBytes := 4096
  maxPadBytes := 4160

/-- A byte read from a source buffer that some host agent writes during the command (R237, U3: "any value" per byte
read). The argument numbers the read; nothing constrains the value (log entry 5). -/
opaque Config.freeByte : Nat → Byte

/-- What `zext_64` gives of a natural that 64 bits do not hold, for which the spec states no value. The argument is the
natural; nothing constrains the value (log entry 22). -/
opaque Config.zextBeyond : Nat → Dword

end Sys2Proof
end

