-- ==== Sys2Proof/Syntax.lean ====
section
/-! DEFINITION. The commands of the block: one constructor per row of spec/opcode_table.json
(spec/30_encoding.md R74). A command word carries no operand (R71), so no constructor has an argument. -/

namespace Sys2Proof

/-- The fifteen commands of R74. -/
inductive Instr where
  | ctxCreate
  | ctxDestroy
  | msgCreateText
  | msgCreateBuf
  | msgDelete
  | msgPreprocess
  | msgDigest
  | msgGetState
  | msgGetBitlen
  | msgGetPadlen
  | msgReadRaw
  | msgReadPadded
  | msgReadDigest
  | ctxMsgCount
  | ctxMsgAt
  deriving DecidableEq, Repr

end Sys2Proof
end

