-- ==== Sys2Proof/WellFormed.lean ====
section
/-! DEFINITION. What is well formed: a command word (spec/30_encoding.md R70, R75), a command (R71: no operand, so
nothing to check), and the parameters of the block (spec/00_scope.md R9). -/

namespace Sys2Proof

/-- RSVD, `v[31:8]`, is zero (R70, R75). -/
def wordReservedZero (v : Word) : Bool := v.extractLsb' 8 24 == 0#24

/-- OPCODE, `v[7:0]`, is one of 0x01 to 0x0F (R74, R75). -/
def wordOpcodeAssigned (v : Word) : Bool :=
  1 ≤ (v.extractLsb' 0 8).toNat && (v.extractLsb' 0 8).toNat ≤ 0x0F

/-- A legal CMD word: the negation of R75's "illegal when RSVD ≠ 0, or when OPCODE is 0x00 or in 0x10 to 0xFF". -/
def wordLegal (v : Word) : Bool := wordReservedZero v && wordOpcodeAssigned v

/-- Every command is well formed: it carries no operand (R71). -/
def Instr.wellFormed : Instr → Bool := fun _ => true

/-- The constraints of R9 on the parameters. The last line is DEDUCED: R124 says `8 × n` with `n ≤ MAX_RAW_BYTES` is
never truncated to the 64 bits of `bit_length` (log entry 6). -/
def Config.wf (c : Config) : Bool :=
  c.devBase.toNat % 0x100 == 0 &&
  1 ≤ c.hostAddrBits && c.hostAddrBits ≤ 64 &&
  1 ≤ c.maxMessages &&
  1 ≤ c.maxRawBytes &&
  c.maxPadBytes % 64 == 0 && 64 ≤ c.maxPadBytes &&
  8 * c.maxRawBytes < 2 ^ 64

end Sys2Proof
end

