-- ==== Sys2Proof/Decode.lean ====
section
/-! DEFINITION. Decoding and encoding of the 32-bit command word (spec/30_encoding.md R70 to R76). -/

namespace Sys2Proof

/-- Why a CMD word is illegal (R75). -/
inductive DecodeError where
  /-- RSVD, `v[31:8]`, is not zero. -/
  | reservedBits
  /-- OPCODE is 0x00 or in 0x10 to 0xFF. -/
  | unassignedOpcode (opcode : Byte)
  deriving DecidableEq, Repr

/-- One row of the opcode map: a word selects the command when `word & mask = word'`. -/
structure OpcodeRow where
  mask : Word
  word : Word
  instr : Instr
  deriving DecidableEq, Repr

/-- OPCODE, bits 7:0 of a CMD word (R70). -/
def opcodeOf (v : Word) : Byte := v.extractLsb' 0 8

/-- RSVD, bits 31:8 of a CMD word (R70). -/
def reservedOf (v : Word) : BitVec 24 := v.extractLsb' 8 24

/-- A row of R74: the mask is 0xFFFF_FFFF in every row. -/
def opcodeRow (word : Word) (i : Instr) : OpcodeRow := ⟨0xFFFFFFFF, word, i⟩

/-- The opcode map of R74. -/
def opcodeMap : List OpcodeRow :=
  [ opcodeRow 0x00000001 .ctxCreate,
    opcodeRow 0x00000002 .ctxDestroy,
    opcodeRow 0x00000003 .msgCreateText,
    opcodeRow 0x00000004 .msgCreateBuf,
    opcodeRow 0x00000005 .msgDelete,
    opcodeRow 0x00000006 .msgPreprocess,
    opcodeRow 0x00000007 .msgDigest,
    opcodeRow 0x00000008 .msgGetState,
    opcodeRow 0x00000009 .msgGetBitlen,
    opcodeRow 0x0000000A .msgGetPadlen,
    opcodeRow 0x0000000B .msgReadRaw,
    opcodeRow 0x0000000C .msgReadPadded,
    opcodeRow 0x0000000D .msgReadDigest,
    opcodeRow 0x0000000E .ctxMsgCount,
    opcodeRow 0x0000000F .ctxMsgAt ]

/-- The row that selects a word, if any (R74: "A decoder selects a command when `word & 0xFFFF_FFFF == CMD word`"). -/
def opcodeSelect (v : Word) : Option OpcodeRow := opcodeMap.find? fun r => v &&& r.mask == r.word

/-- Which illegal word it is (R75). -/
def illegalWord (v : Word) : DecodeError :=
  if reservedOf v ≠ 0 then .reservedBits else .unassignedOpcode (opcodeOf v)

/-- Decode a CMD word: total, every word outside the map is illegal (R75, R76). -/
def decode (v : Word) : Except DecodeError Instr :=
  match opcodeSelect v with
  | some r => .ok r.instr
  | none => .error (illegalWord v)

/-- The CMD word of a command (R74). -/
def encode : Instr → Word
  | .ctxCreate => 0x00000001
  | .ctxDestroy => 0x00000002
  | .msgCreateText => 0x00000003
  | .msgCreateBuf => 0x00000004
  | .msgDelete => 0x00000005
  | .msgPreprocess => 0x00000006
  | .msgDigest => 0x00000007
  | .msgGetState => 0x00000008
  | .msgGetBitlen => 0x00000009
  | .msgGetPadlen => 0x0000000A
  | .msgReadRaw => 0x0000000B
  | .msgReadPadded => 0x0000000C
  | .msgReadDigest => 0x0000000D
  | .ctxMsgCount => 0x0000000E
  | .ctxMsgAt => 0x0000000F

/-- The command the decoder reads from a table word: the low `nbits` bits of `w` are the CMD word. A CMD word is written
in one 32-bit access (R21, R70), so no byte order applies; a value that does not fit 32 bits is no CMD word. -/
def decodeTableWord (nbits w : Nat) : Option Instr :=
  if w % 2 ^ nbits < 2 ^ 32 then
    match decode (BitVec.ofNat 32 (w % 2 ^ nbits)) with
    | .ok i => some i
    | .error _ => none
  else none

end Sys2Proof
end

