-- ==== Sys2Proof/Machine/State.lean ====
section
/-! DEFINITION. The state of the block and of its host side as plain data (spec/10_state.md R20 to R44), the two
reasons a step can stop (spec/60_exceptions.md R215), and the state after reset (R44, spec/70_reset_and_hazards.md R230). -/

namespace Sys2Proof.Machine

/-- The lifecycle state of a Message with the fields that are valid in it (R31: "A field outside its 'valid when'
column holds no value"). -/
inductive Phase where
  /-- Raw: `padded_bit_length`, `padded` and `digest` hold no value. -/
  | raw
  /-- Preprocessed: `padded_bit_length` and `padded` are valid, `digest` holds no value. -/
  | preprocessed (paddedBitLength : Nat) (padded : List Byte)
  /-- Digested: every field is valid. -/
  | digested (paddedBitLength : Nat) (padded : List Byte) (digest : Vector Byte 32)
  deriving DecidableEq, Repr

/-- A message record (R31). -/
structure Message where
  /-- L, the exact length of the input in bits. -/
  bitLength : Dword
  /-- `RawBytes(L)` bytes, unused trailing bits zero. -/
  raw : List Byte
  /-- `state` and what is valid in it. -/
  phase : Phase
  deriving DecidableEq, Repr

/-- The eight working words `a … h` (R35). -/
structure Working where
  a : Word
  b : Word
  c : Word
  d : Word
  e : Word
  f : Word
  g : Word
  h : Word
  deriving DecidableEq, Repr

/-- The registers of the compression engine (R33 to R36). -/
structure Engine where
  /-- The running hash (R34). -/
  H : Vector Word 8
  /-- The working words (R35). -/
  work : Working
  /-- The message schedule (R36). -/
  W : Vector Word 64
  /-- The round temporaries (R36). -/
  T1 : Word
  T2 : Word
  /-- The chunk counter (R33). -/
  c : Nat
  /-- The round or schedule counter (R33). -/
  j : Nat
  deriving DecidableEq, Repr

/-- The engine registers after reset. R44 gives "no value (never read before written, rule R37)"; 0 is a DESIGN CHOICE
(log entry 3, unsafe for a claim about these registers before a digest; no command reads one before writing it). -/
def Engine.atReset : Engine where
  H := Vector.replicate 8 0
  work := ⟨0, 0, 0, 0, 0, 0, 0, 0⟩
  W := Vector.replicate 64 0
  T1 := 0
  T2 := 0
  c := 0
  j := 0

/-- Host memory as the launch admits it (R57): the listed addresses, strictly rising; an address not listed is refused. -/
abbrev Memory := List Host.Cell

/-- One event of the host's side, in the bus order of spec/20_memory.md R61. -/
inductive HostEvent where
  /-- Agent `agent` writes `value` at host address `addr` with an access of `width` bits (R51, R53). -/
  | write (agent : Nat) (addr : Dword) (width : Nat) (value : Dword)
  /-- Agent `agent` reads at host address `addr` with an access of `width` bits (R51, R53). -/
  | read (agent : Nat) (addr : Dword) (width : Nat)
  /-- A host store into host memory, ordered before what follows (R62). -/
  | store (addr : Dword) (byte : Byte)
  /-- A host store that falls between the next CMD write and its command's completion (R237). -/
  | racingStore (addr : Dword) (byte : Byte)
  /-- The reset input is asserted (R230). -/
  | reset
  deriving DecidableEq, Repr

/-- What the model knows of the command sequence in progress (R236). -/
structure Session where
  /-- The host agent whose sequence it is. -/
  agent : Nat
  /-- It has written an operand register since its last CMD write. -/
  operandsWritten : Bool
  /-- It has written CMD. -/
  issued : Bool
  deriving DecidableEq, Repr

/-- One value a host agent read (R240). -/
structure Observation where
  agent : Nat
  offset : BitVec 8
  width : Nat
  value : Dword
  deriving DecidableEq, Repr

/-- The reasons the machine stops with a fault (R215). -/
inductive Fault where
  /-- Raised by a register access that R53 does not define; safe (the model stops where hardware might go on). -/
  | busError (offset : BitVec 8) (width : Nat)
  /-- Raised by MSG_CREATE_TEXT and MSG_CREATE_BUF at the first host address the launch memory refuses: the block is
  stuck (R57, U2); safe. -/
  | stuck (addr : Nat)
  deriving DecidableEq, Repr

/-- The reasons a step has no meaning. -/
inductive Refusal where
  /-- Raised by exec's arm of a command without a meaning; there is none in this model; safe. -/
  | notModelled (mnemonic : String)
  /-- Raised by a register access of agent `intruder` inside the command sequence of agent `owner` (R236, U4, R215);
  safe. -/
  | interleaved (owner intruder : Nat)
  deriving DecidableEq, Repr

/-- Everything the spec gives the machine. -/
structure State where
  /-- The parameters of R9; no step writes them. -/
  cfg : Config
  /-- STATUS (R22). -/
  status : Word
  /-- ARG_A (R23). -/
  argA : Dword
  /-- ARG_B (R24). -/
  argB : Dword
  /-- HANDLE (R25). -/
  handle : Handle
  /-- RESULT (R26). -/
  result : Dword
  /-- `ctx.live` (R28). -/
  ctxLive : Bool
  /-- `order` and `msg` together: the live handles in registration order, each with its record (R29, R31). -/
  messages : List (Handle × Message)
  /-- `next_handle`, a 33-bit counter (R30). -/
  nextHandle : BitVec 33
  /-- The engine registers and counters (R33 to R36). -/
  engine : Engine
  /-- Host memory (R50, R57). -/
  hostMem : Memory
  /-- Host stores in flight during the next command, oldest first (R237). -/
  racing : List Host.Cell
  /-- The host events still to come, in bus order (R61). -/
  bus : List HostEvent
  /-- The command sequence in progress (R236). -/
  session : Option Session
  /-- The values the host has read, oldest first (R240). -/
  observed : List Observation
  /-- The model's own counter of free values (R237, U3; log entry 5). -/
  fresh : Nat
  deriving DecidableEq, Repr

/-- The machine right after reset, idle, with the reference parameters (R44, R230). -/
def State.reset : State where
  cfg := Config.reference
  status := 0
  argA := 0
  argB := 0
  handle := 0
  result := 0
  ctxLive := false
  messages := []
  nextHandle := 1
  engine := Engine.atReset
  hostMem := []
  racing := []
  bus := []
  session := none
  observed := []
  fresh := 0

end Sys2Proof.Machine
end

