-- ==== Sys2Proof/Machine/Flags.lean ====
section
/-! DEFINITION. The outcome codes and the fields of STATUS (spec/10_state.md R22, R42,
spec/60_exceptions.md R200, R201). The block has no other flags. -/

namespace Sys2Proof.Machine

/-- The outcomes of a command (R201). -/
inductive ErrCode where
  | ok
  | alloc
  | notPreprocessed
  | notFound
  | illegal
  | noContext
  | notDigested
  | range
  deriving DecidableEq, Repr

/-- STATUS.ERR of an outcome (R201); 8 to 15 are never produced. -/
def ErrCode.code : ErrCode → BitVec 4
  | .ok => 0
  | .alloc => 1
  | .notPreprocessed => 2
  | .notFound => 3
  | .illegal => 4
  | .noContext => 5
  | .notDigested => 6
  | .range => 7

/-- STATUS after a command: `{0[31:9], CTX_LIVE, 0[7:4], ERR}` (R22, R200). -/
def statusWord (code : ErrCode) (live : Bool) : Word := 0#23 ++ BitVec.ofBool live ++ 0#4 ++ code.code

/-- STATUS.ERR, bits 3:0 (R22). -/
def State.err (s : State) : BitVec 4 := s.status.extractLsb' 0 4

/-- STATUS.CTX_LIVE, bit 8 (R22). -/
def State.statusCtxLive (s : State) : Bool := s.status.getLsbD 8

end Sys2Proof.Machine
end

