-- ==== Sys2Proof/Machine/Memory.lean ====
section
/-! DEFINITION. Host memory: one byte at an address, the canonical form of the list, and the bytes a create command
reads through the bus-master port (spec/20_memory.md R55 to R57, spec/70_reset_and_hazards.md R237). -/

namespace Sys2Proof.Machine

/-- The byte at an address; `none` where the launch memory refuses it (R57, log entry 4). -/
def Memory.read (a : Nat) : Memory → Option Byte
  | [] => none
  | (k, b) :: m => if a = k then some b else Memory.read a m

/-- A host store. It keeps the list's addresses strictly rising. -/
def Memory.write (a : Nat) (v : Byte) : Memory → Memory
  | [] => [(a, v)]
  | (k, b) :: m =>
    if a < k then (a, v) :: (k, b) :: m
    else if a = k then (a, v) :: m
    else (k, b) :: Memory.write a v m

/-- The canonical form: addresses strictly rising. An unlisted address reads as no byte, so no entry can equal it. -/
def Memory.wf : Memory → Bool
  | [] => true
  | [_] => true
  | (k, _) :: (k', b') :: m => k < k' && Memory.wf ((k', b') :: m)

/-- Several stores, in order. -/
def Memory.writeAll (m : Memory) (stores : List Host.Cell) : Memory :=
  stores.foldl (fun m p => m.write p.1 p.2) m

/-- The host address of byte `i` of a buffer: `(addr + i) mod 2^HOST_ADDR_BITS` (R56). -/
def hostAddr (cfg : Config) (addr : Dword) (i : Nat) : Nat := (addr.toNat + i) % 2 ^ cfg.hostAddrBits

/-- Some store in flight hits one of the `n` addresses of the buffer at `addr` (R237). -/
def State.raced (s : State) (addr : Dword) (n : Nat) : Bool :=
  s.racing.any fun p =>
    p.1 < 2 ^ s.cfg.hostAddrBits &&
    (p.1 + 2 ^ s.cfg.hostAddrBits - hostAddr s.cfg addr 0) % 2 ^ s.cfg.hostAddrBits < n

/-- `MemRead(addr + i, 1)`: no byte where the launch memory refuses the address (R57); any value where the buffer is
raced (R237, U3); else what host memory holds (R55, U1). -/
def State.hostByte (s : State) (raced : Bool) (addr : Dword) (i : Nat) : Option Byte :=
  match s.hostMem.read (hostAddr s.cfg addr i) with
  | none => none
  | some b => some (if raced then Config.freeByte (s.fresh + i) else b)

/-- `MemRead` of bytes `i` to `i + n - 1` of a buffer, in that order; the first refused address otherwise (R55, R57). -/
def State.memRead (s : State) (raced : Bool) (addr : Dword) : (n i : Nat) → Except Nat (List Byte)
  | 0, _ => .ok []
  | n + 1, i =>
    match s.hostByte raced addr i with
    | none => .error (hostAddr s.cfg addr i)
    | some b =>
      match s.memRead raced addr n (i + 1) with
      | .error a => .error a
      | .ok bs => .ok (b :: bs)

/-- What the scan of a text finds (spec/40_context.md R107). -/
inductive Scan where
  /-- The bytes before the first 0x00. -/
  | text (bytes : List Byte)
  /-- No 0x00 among the bytes read. -/
  | unterminated
  /-- The launch memory refuses an address before a 0x00 was found. -/
  | refused (addr : Nat)
  deriving DecidableEq, Repr

/-- How many bytes, of at most `n` from byte `i` on, the scan of a text asks for as host memory stands: up to and with the
first 0x00, or the first refused address (R107, D24). They are the text's source buffer (R237, log entry 5). -/
def State.textReads (s : State) (addr : Dword) : (n i : Nat) → Nat
  | 0, _ => 0
  | n + 1, i =>
    match s.hostMem.read (hostAddr s.cfg addr i) with
    | none => 1
    | some b => if b = 0 then 1 else s.textReads addr n (i + 1) + 1

/-- Some store in flight hits the text at `addr` (R237): a byte past its 0x00 is not read, and no store there races. -/
def State.textRaced (s : State) (addr : Dword) : Bool :=
  s.raced addr (s.textReads addr (s.cfg.maxRawBytes + 1) 0)

/-- Put a byte before a scanned text. -/
def Scan.push (b : Byte) : Scan → Scan
  | .text bs => .text (b :: bs)
  | .unterminated => .unterminated
  | .refused a => .refused a

/-- Read at most `n` bytes from byte `i` on, up to the first 0x00; nothing is read after it (R107, D24). In a raced text
each byte is a free value, so the scan may end before or after the 0x00 that host memory holds. -/
def State.scanText (s : State) (raced : Bool) (addr : Dword) : (n i : Nat) → Scan
  | 0, _ => .unterminated
  | n + 1, i =>
    match s.hostByte raced addr i with
    | none => .refused (hostAddr s.cfg addr i)
    | some b => if b = 0 then .text [] else (s.scanText raced addr n (i + 1)).push b

/-- Pass the free values of a raced read of up to `n` bytes, so that no later read shares one (log entry 5). -/
def State.spendFree (s : State) (raced : Bool) (n : Nat) : State :=
  if raced then { s with fresh := s.fresh + n } else s

/-- The stores in flight land when the command has completed (R237). -/
def State.landStores (s : State) : State :=
  { s with hostMem := s.hostMem.writeAll s.racing, racing := [] }

end Sys2Proof.Machine
end

