-- ==== Sys2Proof/Machine/Operands.lean ====
section
/-! DEFINITION. Operand assembly (spec/30_encoding.md R71 to R73): nothing is sign-extended, scaled or shifted. -/

namespace Sys2Proof.Machine

/-- `addr = ARG_A`, a host address, used modulo 2^HOST_ADDR_BITS (R72, R56). -/
def State.opAddr (s : State) : Dword := s.argA

/-- `index = ARG_A`, an unsigned byte index or list position, compared as a natural number (R72). -/
def State.opIndex (s : State) : Nat := s.argA.toNat

/-- `L = ARG_B`, an unsigned bit count of 64 significant bits (R72, R24). -/
def State.opBitLength (s : State) : Dword := s.argB

/-- `h = HANDLE`, 32 bits, unsigned (R72). -/
def State.opHandle (s : State) : Handle := s.handle

end Sys2Proof.Machine
end

