-- ==== Sys2Proof/Machine/Ops.lean ====
section
/-! DEFINITION. The operations the commands share: completion and raising an error (spec/60_exceptions.md R200, R210),
the common checks (R209), the Message collection (spec/10_state.md R29 to R32, spec/40_context.md R100 to R103) and
the reset event (spec/70_reset_and_hazards.md R230). The block has no traps (R211): raising is a completion. -/

namespace Sys2Proof.Machine

/-- What a step or a command answers. -/
abbrev Result := Host.Outcome State Fault Refusal

/-- The next state, if there is one. -/
def nextState? : Result → Option State
  | .next s => some s
  | .fault _ => none
  | .refused _ => none

/-- Go on from the next state, if there is one. -/
def mapNext (f : State → State) : Result → Result
  | .next s => .next (f s)
  | .fault r => .fault r
  | .refused r => .refused r

/-- `complete(code, result)`, the last action of every command (R200). -/
def State.complete (s : State) (code : ErrCode) (result : Dword) : State :=
  { s with result := result, status := statusWord code s.ctxLive }

/-- `complete(OK, result)`. -/
def succeed (result : Dword) (s : State) : Result := .next (s.complete .ok result)

/-- `raise E`: completion with E's code and RESULT 0, and no other state change (R200, R210). -/
def raise (e : ErrCode) (s : State) : Result := .next (s.complete e 0)

/-- The NoContext check of every command but CTX_CREATE (R203, R209 item 2). -/
def withContext (s : State) (k : Result) : Result := if s.ctxLive then k else raise .noContext s

/-- `order`: the live handles, oldest first (R29). -/
def State.order (s : State) : List Handle := s.messages.map Prod.fst

/-- `msg[h]` (R31). -/
def State.msg? (s : State) (h : Handle) : Option Message := s.messages.lookup h

/-- The lookup of the command's HANDLE (R100, R204, R209 item 3): go on with the record it names, or NotFoundError. -/
def withMessage (s : State) (k : Message → Result) : Result :=
  match s.msg? s.opHandle with
  | some m => k m
  | none => raise .notFound s

/-- Put a new record in the place of the record a handle names; the order is kept. -/
def State.setMsg (s : State) (h : Handle) (m : Message) : State :=
  { s with messages := s.messages.map fun p => if p.1 = h then (h, m) else p }

/-- Unregister a handle and release its record; the others keep their relative order (R109). -/
def State.dropMsg (s : State) (h : Handle) : State :=
  { s with messages := s.messages.filter fun p => p.1 ≠ h }

/-- `zext_64` of a natural (R11). The spec states no value where 64 bits do not hold it; there it is a free value of that
natural (log entry 22). -/
def zext64 (n : Nat) : Dword := if n < 2 ^ 64 then BitVec.ofNat 64 n else Config.zextBeyond n

/-- `RawBytes(L) = max(1, ceil(L/8))` (R31, R101). -/
def rawBytes (L : Nat) : Nat := max 1 ((L + 7) / 8)

/-- A free slot: `length(order) < MAX_MESSAGES` (R102 item 1). -/
def State.slotFree (s : State) : Bool := s.messages.length < s.cfg.maxMessages

/-- A handle to issue: `next_handle < 2^32` (R102 item 2). -/
def State.handleLeft (s : State) : Bool := s.nextHandle.toNat < 2 ^ 32

/-- `CanAllocMsg(L)` (R102). -/
def State.canAllocMsg (s : State) (L : Nat) : Bool :=
  s.slotFree && s.handleLeft && rawBytes L ≤ s.cfg.maxRawBytes

/-- `RawStore(src, L)` (R101): the first ceil(L/8) bytes with the final byte's unused low bits cleared; one zero byte
for L = 0. -/
def rawStore (src : List Byte) (L : Nat) : List Byte :=
  if L = 0 then [0]
  else
    let nbytes := (L + 7) / 8
    let raw := src.take nbytes
    if L % 8 = 0 then raw
    else raw.set (nbytes - 1) (raw.getD (nbytes - 1) 0 &&& (0xFF#8 <<< (8 - L % 8)))

/-- Message bit i of a byte string: bit `7 - (i mod 8)` of byte `i / 8` (spec/00_scope.md R12). -/
def messageBit (bytes : List Byte) (i : Nat) : Bool := (bytes.getD (i / 8) 0).getLsbD (7 - i % 8)

/-- The handle `Register` returns: `next_handle` (R103). -/
def State.newHandle (s : State) : Handle := s.nextHandle.setWidth 32

/-- `Register(raw, L)` (R103): a Raw Message at the tail, and the counter incremented. -/
def State.register (s : State) (raw : List Byte) (L : Dword) : State :=
  { s with
    nextHandle := s.nextHandle + 1
    messages := s.messages ++ [(s.newHandle, { bitLength := L, raw := raw, phase := .raw })] }

/-- Register and complete with the new handle in RESULT (R103, R107, R108). -/
def createMessage (raw : List Byte) (L : Dword) (s : State) : Result :=
  succeed (s.newHandle.setWidth 64) (s.register raw L)

/-- The numeric code of a Message's state (R31, D9). -/
def Phase.code : Phase → BitVec 2
  | .raw => 0
  | .preprocessed _ _ => 1
  | .digested _ _ _ => 2

/-- `padded_bit_length` and `padded`, valid when the state is Preprocessed or Digested (R31). -/
def Phase.padded? : Phase → Option (Nat × List Byte)
  | .raw => none
  | .preprocessed P buf => some (P, buf)
  | .digested P buf _ => some (P, buf)

/-- `digest`, valid when the state is Digested (R31). -/
def Phase.digest? : Phase → Option (Vector Byte 32)
  | .raw => none
  | .preprocessed _ _ => none
  | .digested _ _ d => some d

/-- The reset event (R230): every state element of the block takes the value of R44. The parameters, host memory, the
host's events still to come and what the host has read are not the block's. -/
def State.resetBlock (s : State) : State :=
  { s with
    status := 0
    argA := 0
    argB := 0
    handle := 0
    result := 0
    ctxLive := false
    messages := []
    nextHandle := 1
    engine := Engine.atReset
    session := none }

end Sys2Proof.Machine
end

