-- ==== Sys2Proof/Machine/Context.lean ====
section
/-! DEFINITION. The Context commands (spec/40_context.md R105, R106, R111, R112). -/

namespace Sys2Proof.Machine

/-- CTX_CREATE (R105): no NoContext check; AllocationError when a Context is already live. -/
def execCtxCreate (s : State) : Result :=
  if s.ctxLive then raise .alloc s
  else succeed 0 { s with ctxLive := true, messages := [] }

/-- The loop of CTX_DESTROY: remove the head of the collection, with its record, until nothing is left (R106). -/
def releaseAll : List (Handle × Message) → List (Handle × Message)
  | [] => []
  | _ :: rest => releaseAll rest

/-- CTX_DESTROY (R106): release every Message in registration order, then the Context. -/
def execCtxDestroy (s : State) : Result :=
  withContext s (succeed 0 { s with messages := releaseAll s.messages, ctxLive := false })

/-- CTX_MSG_COUNT (R111). -/
def execCtxMsgCount (s : State) : Result :=
  withContext s (succeed (BitVec.ofNat 64 s.order.length) s)

/-- CTX_MSG_AT (R112): the handle at a position of the registration order. -/
def execCtxMsgAt (s : State) : Result :=
  withContext s (match s.order[s.opIndex]? with
    | some h => succeed (h.setWidth 64) s
    | none => raise .range s)

end Sys2Proof.Machine
end

