-- ==== Sys2Proof/Machine/Engine.lean ====
section
/-! DEFINITION. The compression engine as a register machine (spec/42_digest.md R140 to R152), word arithmetic as
spec/00_scope.md R13 has it. -/

namespace Sys2Proof.Machine

/-- `rotr(x, n) = (x >> n) ∨ (x << (32 - n))` for 1 ≤ n ≤ 31 (R13). -/
def rotr (x : Word) (n : Nat) : Word := (x >>> n) ||| (x <<< (32 - n))

/-- `Ch` (R140). -/
def ch (e f g : Word) : Word := (e &&& f) ^^^ (~~~e &&& g)

/-- `Maj` (R141). -/
def maj (a b c : Word) : Word := (a &&& b) ^^^ (a &&& c) ^^^ (b &&& c)

/-- `Σ0` (R142). -/
def bigSigma0 (a : Word) : Word := rotr a 2 ^^^ rotr a 13 ^^^ rotr a 22

/-- `Σ1` (R143). -/
def bigSigma1 (e : Word) : Word := rotr e 6 ^^^ rotr e 11 ^^^ rotr e 25

/-- `σ0` (R144). -/
def smallSigma0 (x : Word) : Word := rotr x 7 ^^^ rotr x 18 ^^^ (x >>> 3)

/-- `σ1` (R145). -/
def smallSigma1 (x : Word) : Word := rotr x 17 ^^^ rotr x 19 ^^^ (x >>> 10)

/-- `BE32(b0, b1, b2, b3)` (R14). -/
def be32 (b0 b1 b2 b3 : Byte) : Word := b0 ++ b1 ++ b2 ++ b3

/-- The schedule register `W[t]`. -/
def Engine.w (e : Engine) (t : Nat) : Word := e.W[t]?.getD 0

/-- `W[t] <- v`, with the schedule counter at t. -/
def Engine.setW (e : Engine) (t : Nat) (v : Word) : Engine := { e with W := e.W.setIfInBounds t v, j := t }

/-- Word t of a chunk (R147). -/
def chunkWord (B : List Byte) (t : Nat) : Word :=
  be32 (B.getD (4 * t) 0) (B.getD (4 * t + 1) 0) (B.getD (4 * t + 2) 0) (B.getD (4 * t + 3) 0)

/-- Schedule load: `W[0 .. n-1]` from the chunk, in increasing t (R147). -/
def Engine.loadSchedule (B : List Byte) (e : Engine) : Nat → Engine
  | 0 => e
  | n + 1 => (e.loadSchedule B n).setW n (chunkWord B n)

/-- Schedule expansion of `W[t]` from earlier words (R148). -/
def Engine.expandWord (e : Engine) (t : Nat) : Engine :=
  e.setW t (smallSigma1 (e.w (t - 2)) + e.w (t - 7) + smallSigma0 (e.w (t - 15)) + e.w (t - 16))

/-- Schedule expansion: `W[16 .. 15+n]`, in increasing t (R148). -/
def Engine.expandSchedule (e : Engine) : Nat → Engine
  | 0 => e
  | n + 1 => (e.expandSchedule n).expandWord (16 + n)

/-- The whole schedule of a chunk: load, then expansion (R147, R148). -/
@[irreducible] def Engine.schedule (B : List Byte) (e : Engine) : Engine := (e.loadSchedule B 16).expandSchedule 48

/-- The working words from the running hash (R152). -/
def Engine.loadWorking (e : Engine) : Engine :=
  { e with work := ⟨e.H[0], e.H[1], e.H[2], e.H[3], e.H[4], e.H[5], e.H[6], e.H[7]⟩ }

/-- Round t: all eight working words at once, from the old values (R149). -/
def Engine.round (e : Engine) (t : Nat) : Engine :=
  let v := e.work
  let T1 := v.h + bigSigma1 v.e + ch v.e v.f v.g + romK t + e.w t
  let T2 := bigSigma0 v.a + maj v.a v.b v.c
  { e with
    work := ⟨T1 + T2, v.a, v.b, v.c, v.d + T1, v.e, v.f, v.g⟩
    T1 := T1
    T2 := T2
    j := t }

/-- Rounds 0 to n-1 (R149). -/
def Engine.rounds (e : Engine) : Nat → Engine
  | 0 => e
  | n + 1 => (e.rounds n).round n

/-- The 64 rounds of a chunk (R149). -/
@[irreducible] def Engine.compress (e : Engine) : Engine := e.rounds 64

/-- The fold of the working words into the running hash (R150). -/
def Engine.fold (e : Engine) : Engine :=
  let v := e.work
  { e with
    H := #v[e.H[0] + v.a, e.H[1] + v.b, e.H[2] + v.c, e.H[3] + v.d,
            e.H[4] + v.e, e.H[5] + v.f, e.H[6] + v.g, e.H[7] + v.h] }

/-- Chunk c of a buffer: bytes 64c to 64c + 63 (R146). -/
def chunkOf (buf : List Byte) (c : Nat) : List Byte := (buf.drop (64 * c)).take 64

/-- One chunk: schedule, 64 rounds, fold (R152). -/
def Engine.chunk (buf : List Byte) (e : Engine) (c : Nat) : Engine :=
  (({ e with c := c } : Engine).schedule (chunkOf buf c)).loadWorking.compress.fold

/-- Chunks 0 to n-1, strictly in order (R146). -/
def Engine.chunks (buf : List Byte) (e : Engine) : Nat → Engine
  | 0 => e
  | n + 1 => (e.chunks buf n).chunk buf n

/-- The whole engine over a buffer of n chunks, from whatever its registers held (R152). -/
def Engine.run (buf : List Byte) (n : Nat) (e : Engine) : Engine := { e with H := romH0 }.chunks buf n

/-- Serialisation: byte 4i + k is `(H[i] >> (8 × (3 - k))) mod 256` (R151). -/
def serialise (H : Vector Word 8) : Vector Byte 32 :=
  Vector.ofFn fun i : Fin 32 => ((H[i.val / 4]'(by omega)) >>> (8 * (3 - i.val % 4))).setWidth 8

/-- `SHA256Digest(buf)`, the engine's result as a function of the buffer alone (R152). -/
def sha256Digest (buf : List Byte) : Vector Byte 32 :=
  serialise (Engine.atReset.run buf (buf.length / 64)).H

end Sys2Proof.Machine
end

