-- ==== Sys2Proof/Machine/Digest.lean ====
section
/-! DEFINITION. MSG_DIGEST (spec/42_digest.md R153, R154). -/

namespace Sys2Proof.Machine

/-- MSG_DIGEST (R153): the engine runs over the P/512 chunks of `padded` and leaves its registers behind; the digest and
the state are written at the end. -/
def execMsgDigest (s : State) : Result :=
  withContext s (withMessage s fun m =>
    match m.phase with
    | .raw => raise .notPreprocessed s
    | .digested _ _ _ => succeed 0 s
    | .preprocessed P buf =>
      let engine := s.engine.run buf (P / 512)
      succeed 0 ({ s with engine := engine }.setMsg s.opHandle
        { m with phase := .digested P buf (serialise engine.H) }))

end Sys2Proof.Machine
end

