-- ==== Sys2Proof/Machine/Message.lean ====
section
/-! DEFINITION. The Message lifecycle commands (spec/40_context.md R107, R108, R109). -/

namespace Sys2Proof.Machine

/-- MSG_CREATE_TEXT (R107): the capacity checks come before any read; at most MAX_RAW_BYTES + 1 bytes are read. -/
def execMsgCreateText (s : State) : Result :=
  withContext s (
    if s.slotFree && s.handleLeft then
      let window := s.cfg.maxRawBytes + 1
      let raced := s.textRaced s.opAddr
      match s.scanText raced s.opAddr window 0 with
      | .refused a => .fault (.stuck a)
      | .unterminated => raise .alloc (s.spendFree raced window)
      | .text bytes =>
        createMessage (rawStore bytes (8 * bytes.length)) (BitVec.ofNat 64 (8 * bytes.length))
          (s.spendFree raced window)
    else raise .alloc s)

/-- MSG_CREATE_BUF (R108): the capacity check comes before any read; ceil(L/8) bytes are read, none for L = 0. -/
def execMsgCreateBuf (s : State) : Result :=
  withContext s (
    let L := s.opBitLength
    if s.canAllocMsg L.toNat then
      let nbytes := (L.toNat + 7) / 8
      let raced := s.raced s.opAddr nbytes
      match s.memRead raced s.opAddr nbytes 0 with
      | .error a => .fault (.stuck a)
      | .ok src => createMessage (rawStore src L.toNat) L (s.spendFree raced nbytes)
    else raise .alloc s)

/-- MSG_DELETE (R109). -/
def execMsgDelete (s : State) : Result :=
  withContext s (withMessage s fun _ => succeed 0 (s.dropMsg s.opHandle))

end Sys2Proof.Machine
end

