-- ==== Sys2Proof/Machine/Preprocess.lean ====
section
/-! DEFINITION. The preprocessor: padding and length encoding, and MSG_PREPROCESS (spec/41_preprocess.md R120 to R125). -/

namespace Sys2Proof.Machine

/-- `PadLen(L) = 512 × ceil((L + 65) / 512)`, on naturals (R121). -/
def padLen (L : Nat) : Nat := 512 * ((L + 65 + 511) / 512)

/-- `PadBytes(L) = PadLen(L) / 8` (R121). -/
def padBytes (L : Nat) : Nat := padLen L / 8

/-- `BE64(L)`: byte k is `(L >> (8 × (7 - k))) mod 256` (R122). -/
def be64 (L : Nat) : List Byte := (List.range 8).map fun k => BitVec.ofNat 8 (L >>> (8 * (7 - k)))

/-- Steps 2 and 3 of `Pad`: a zeroed buffer with the content bytes copied to its start (R122). -/
def padContent (raw : List Byte) (L : Nat) : List Byte :=
  let content := raw.take ((L + 7) / 8)
  content ++ List.replicate (padBytes L - content.length) 0

/-- Step 4 of `Pad`: the single 1 bit at bit position L, `0x80 >> (L mod 8)` of byte `L / 8` (R122). -/
def padMark (buf : List Byte) (L : Nat) : List Byte :=
  buf.set (L / 8) (buf.getD (L / 8) 0 ||| (0x80#8 >>> (L % 8)))

/-- Step 5 of `Pad`: the length in the last 8 bytes, most significant byte first (R122). -/
def padLength (buf : List Byte) (L : Nat) : List Byte := buf.take (padBytes L - 8) ++ be64 L

/-- `Pad(raw, L)` (R122). -/
def pad (raw : List Byte) (L : Nat) : List Byte := padLength (padMark (padContent raw L) L) L

/-- MSG_PREPROCESS (R123): the no-op success on a Preprocessed or Digested Message comes before the capacity check
(R209). -/
def execMsgPreprocess (s : State) : Result :=
  withContext s (withMessage s fun m =>
    match m.phase with
    | .preprocessed _ _ => succeed 0 s
    | .digested _ _ _ => succeed 0 s
    | .raw =>
      let L := m.bitLength.toNat
      if padBytes L ≤ s.cfg.maxPadBytes then
        succeed 0 (s.setMsg s.opHandle { m with phase := .preprocessed (padLen L) (pad m.raw L) })
      else raise .alloc s)

end Sys2Proof.Machine
end

