-- ==== Sys2Proof/Machine/Readback.lean ====
section
/-! DEFINITION. The read-back commands (spec/43_readback.md R170 to R175): they change only STATUS and RESULT. -/

namespace Sys2Proof.Machine

/-- MSG_GET_STATE (R170). -/
def execMsgGetState (s : State) : Result :=
  withContext s (withMessage s fun m => succeed (m.phase.code.setWidth 64) s)

/-- MSG_GET_BITLEN (R171). -/
def execMsgGetBitlen (s : State) : Result :=
  withContext s (withMessage s fun m => succeed m.bitLength s)

/-- MSG_GET_PADLEN (R172): all of P where 64 bits hold it; the spec states no RESULT for a longer one (log entry 22). -/
def execMsgGetPadlen (s : State) : Result :=
  withContext s (withMessage s fun m =>
    match m.phase.padded? with
    | none => raise .notPreprocessed s
    | some (P, _) => succeed (zext64 P) s)

/-- MSG_READ_RAW (R173): the bound is `RawBytes(L)`. -/
def execMsgReadRaw (s : State) : Result :=
  withContext s (withMessage s fun m =>
    if s.opIndex < rawBytes m.bitLength.toNat then
      succeed ((m.raw.getD s.opIndex 0).setWidth 64) s
    else raise .range s)

/-- MSG_READ_PADDED (R174): the state is checked before the range; the bound is P/8. -/
def execMsgReadPadded (s : State) : Result :=
  withContext s (withMessage s fun m =>
    match m.phase.padded? with
    | none => raise .notPreprocessed s
    | some (P, buf) =>
      if s.opIndex < P / 8 then succeed ((buf.getD s.opIndex 0).setWidth 64) s
      else raise .range s)

/-- MSG_READ_DIGEST (R175): the state is checked before the range; the bound is 32. -/
def execMsgReadDigest (s : State) : Result :=
  withContext s (withMessage s fun m =>
    match m.phase.digest? with
    | none => raise .notDigested s
    | some d =>
      match d[s.opIndex]? with
      | some b => succeed (b.setWidth 64) s
      | none => raise .range s)

end Sys2Proof.Machine
end

