-- ==== Sys2Proof/Machine/Dispatch.lean ====
section
/-! DEFINITION. One arm per command, each a direct call of its meaning (spec/30_encoding.md R74). -/

namespace Sys2Proof.Machine

def exec (i : Instr) (s : State) : Host.Outcome State Fault Refusal :=
  match i with
  | .ctxCreate => Sys2Proof.Machine.execCtxCreate s
  | .ctxDestroy => Sys2Proof.Machine.execCtxDestroy s
  | .msgCreateText => Sys2Proof.Machine.execMsgCreateText s
  | .msgCreateBuf => Sys2Proof.Machine.execMsgCreateBuf s
  | .msgDelete => Sys2Proof.Machine.execMsgDelete s
  | .msgPreprocess => Sys2Proof.Machine.execMsgPreprocess s
  | .msgDigest => Sys2Proof.Machine.execMsgDigest s
  | .msgGetState => Sys2Proof.Machine.execMsgGetState s
  | .msgGetBitlen => Sys2Proof.Machine.execMsgGetBitlen s
  | .msgGetPadlen => Sys2Proof.Machine.execMsgGetPadlen s
  | .msgReadRaw => Sys2Proof.Machine.execMsgReadRaw s
  | .msgReadPadded => Sys2Proof.Machine.execMsgReadPadded s
  | .msgReadDigest => Sys2Proof.Machine.execMsgReadDigest s
  | .ctxMsgCount => Sys2Proof.Machine.execCtxMsgCount s
  | .ctxMsgAt => Sys2Proof.Machine.execCtxMsgAt s

end Sys2Proof.Machine
end

