-- ==== Sys2Proof/Machine/Command.lean ====
section
/-! DEFINITION. The command cycle (spec/60_exceptions.md R213): decode the word written to CMD and run its command, as
one indivisible step (spec/20_memory.md R52). -/

namespace Sys2Proof.Machine

/-- The command ILLEGAL: IllegalCommandError before any other check, whether or not a Context is live (R75, R202). -/
def execIllegal (s : State) : Result := raise .illegal s

/-- The command of a CMD word (R213). -/
def runWord (v : Word) (s : State) : Result :=
  match decode v with
  | .ok i => exec i s
  | .error _ => execIllegal s

/-- A CMD write: the whole command, then the host stores that fell inside it (R52, R237). -/
def commandCycle (v : Word) (s : State) : Result := mapNext State.landStores (runWord v s)

end Sys2Proof.Machine
end

