-- ==== Sys2Proof/Machine/Bus.lean ====
section
/-! DEFINITION. The register block as the host sees it (spec/10_state.md R20 to R27, spec/20_memory.md R50 to R54), the
exclusive use of it (spec/70_reset_and_hazards.md R236), and what one host event does. -/

namespace Sys2Proof.Machine

/-- The registers of R20. -/
inductive Reg where
  | cmd
  | status
  | argA
  | argB
  | handle
  | result
  | reserved
  deriving DecidableEq, Repr

/-- The part of a register an access reaches (R54): bits 31:0, bits 63:32, or the whole register. -/
inductive Part where
  | whole
  | low
  | high
  deriving DecidableEq, Repr

/-- The register a 32-bit access at a 4-byte-aligned offset reaches (R20, R54). -/
def select32 (off : Nat) : Reg × Part :=
  if off = 0x00 then (.cmd, .whole)
  else if off = 0x04 then (.status, .whole)
  else if off = 0x08 then (.argA, .low)
  else if off = 0x0C then (.argA, .high)
  else if off = 0x10 then (.argB, .low)
  else if off = 0x14 then (.argB, .high)
  else if off = 0x18 then (.handle, .whole)
  else if off = 0x20 then (.result, .low)
  else if off = 0x24 then (.result, .high)
  else (.reserved, .whole)

/-- The register a 64-bit access at an 8-byte-aligned offset reaches; none at 0x00 and 0x18, which span two 32-bit
registers (R53). -/
def select64 (off : Nat) : Option (Reg × Part) :=
  if off = 0x00 then none
  else if off = 0x08 then some (.argA, .whole)
  else if off = 0x10 then some (.argB, .whole)
  else if off = 0x18 then none
  else if off = 0x20 then some (.result, .whole)
  else some (.reserved, .whole)

/-- The register an access reaches; none where R53 makes it a bus error. -/
def selectReg (off : BitVec 8) (width : Nat) : Option (Reg × Part) :=
  if width = 32 ∧ off.toNat % 4 = 0 then some (select32 off.toNat)
  else if width = 64 ∧ off.toNat % 8 = 0 then select64 off.toNat
  else none

/-- The offset of a host address in the register block, `DEV_BASE + 0x00` to `DEV_BASE + 0xFF` (R20). An access is where it
begins: one that begins below DEV_BASE and reaches into the block is outside it (DESIGN CHOICE, unsafe, log entry 11: the
spec gives it no offset). -/
def blockOffset (cfg : Config) (addr : Dword) : Option (BitVec 8) :=
  if cfg.devBase.toNat ≤ addr.toNat ∧ addr.toNat < cfg.devBase.toNat + 0x100 then
    some (BitVec.ofNat 8 (addr.toNat - cfg.devBase.toNat))
  else none

/-- What an access selects. -/
inductive Selected where
  /-- Not an address of the register block. -/
  | outside
  /-- An access R53 does not define. -/
  | undefined (off : BitVec 8)
  | register (off : BitVec 8) (r : Reg) (p : Part)
  deriving DecidableEq, Repr

/-- What an access at a host address selects. -/
def selectAccess (cfg : Config) (addr : Dword) (width : Nat) : Selected :=
  match blockOffset cfg addr with
  | none => .outside
  | some off =>
    match selectReg off width with
    | none => .undefined off
    | some (r, p) => .register off r p

/-- The part of a 64-bit value (R54). -/
def Part.get (p : Part) (v : Dword) : Dword :=
  match p with
  | .whole => v
  | .low => (v.extractLsb' 0 32).setWidth 64
  | .high => (v.extractLsb' 32 32).setWidth 64

/-- A 64-bit register with one part replaced: "A 32-bit write to one half changes only that half" (R54). -/
def Part.put (p : Part) (v old : Dword) : Dword :=
  match p with
  | .whole => v
  | .low => old.extractLsb' 32 32 ++ v.extractLsb' 0 32
  | .high => v.extractLsb' 0 32 ++ old.extractLsb' 0 32

/-- The value a read returns: CMD and reserved offsets read 0; a read has no side effect (R20, R21, R27, R60). -/
def State.readReg (s : State) (r : Reg) (p : Part) : Dword :=
  match r with
  | .cmd => 0
  | .status => s.status.setWidth 64
  | .argA => p.get s.argA
  | .argB => p.get s.argB
  | .handle => s.handle.setWidth 64
  | .result => p.get s.result
  | .reserved => 0

/-- A write of a register other than CMD: read-only registers and reserved offsets ignore it (R20, R22, R26, R27). -/
def State.writeReg (s : State) (r : Reg) (p : Part) (v : Dword) : State :=
  match r with
  | .cmd => s
  | .status => s
  | .argA => { s with argA := p.put v s.argA }
  | .argB => { s with argB := p.put v s.argB }
  | .handle => { s with handle := v.setWidth 32 }
  | .result => s
  | .reserved => s

/-- An access of CMD. -/
def isCommand (cfg : Config) (addr : Dword) (width : Nat) : Bool :=
  match selectAccess cfg addr width with
  | .register _ .cmd _ => true
  | _ => false

/-- An access of STATUS or RESULT. -/
def isOutcome (cfg : Config) (addr : Dword) (width : Nat) : Bool :=
  match selectAccess cfg addr width with
  | .register _ .status _ => true
  | .register _ .result _ => true
  | _ => false

/-- Among the events still to come, up to a reset, `agent` writes CMD. -/
def commandAhead (cfg : Config) (agent : Nat) : List HostEvent → Bool
  | [] => false
  | .reset :: _ => false
  | .write a addr width _ :: rest => (a == agent && isCommand cfg addr width) || commandAhead cfg agent rest
  | .read _ _ _ :: rest => commandAhead cfg agent rest
  | .store _ _ :: rest => commandAhead cfg agent rest
  | .racingStore _ _ :: rest => commandAhead cfg agent rest

/-- Among the events still to come, up to a reset and up to its next CMD write, `agent` reads STATUS or RESULT. -/
def outcomeReadAhead (cfg : Config) (agent : Nat) : List HostEvent → Bool
  | [] => false
  | .reset :: _ => false
  | .write a addr width _ :: rest =>
    !(a == agent && isCommand cfg addr width) && outcomeReadAhead cfg agent rest
  | .read a addr width :: rest => (a == agent && isOutcome cfg addr width) || outcomeReadAhead cfg agent rest
  | .store _ _ :: rest => outcomeReadAhead cfg agent rest
  | .racingStore _ _ :: rest => outcomeReadAhead cfg agent rest

/-- A command sequence is still open: from its first operand write to its CMD write, and from there to its last read of
STATUS or RESULT for that command (R236, log entry 8). -/
def Session.isOpen (x : Session) (cfg : Config) (ahead : List HostEvent) : Bool :=
  (x.operandsWritten && commandAhead cfg x.agent ahead) || (x.issued && outcomeReadAhead cfg x.agent ahead)

/-- The other agent inside whose open command sequence an access of `agent` falls, if any (R236). -/
def State.intrudedOn (s : State) (agent : Nat) : Option Nat :=
  match s.session with
  | none => none
  | some x => if x.agent ≠ agent ∧ x.isOpen s.cfg s.bus then some x.agent else none

/-- The sequence after a register write: an operand write opens one, a CMD write issues its command (R236). -/
def sessionAfter (agent : Nat) (r : Reg) (old : Option Session) : Option Session :=
  let issued := match old with
    | none => false
    | some x => x.agent == agent && x.issued
  match r with
  | .cmd => some ⟨agent, false, true⟩
  | .argA => some ⟨agent, true, issued⟩
  | .argB => some ⟨agent, true, issued⟩
  | .handle => some ⟨agent, true, issued⟩
  | .status => old
  | .result => old
  | .reserved => old

/-- The effect of a defined write: a CMD write is a command cycle, any other replaces the addressed bits (R21, R51). -/
def State.writeEffect (s : State) (r : Reg) (p : Part) (v : Dword) : Result :=
  match r with
  | .cmd => commandCycle (v.setWidth 32) s
  | .status => .next (s.writeReg .status p v)
  | .argA => .next (s.writeReg .argA p v)
  | .argB => .next (s.writeReg .argB p v)
  | .handle => .next (s.writeReg .handle p v)
  | .result => .next (s.writeReg .result p v)
  | .reserved => .next (s.writeReg .reserved p v)

/-- A write by a host agent (R51, R53, R236). An address outside the block is no access to it. -/
def hostWrite (agent : Nat) (addr : Dword) (width : Nat) (v : Dword) (s : State) : Result :=
  match selectAccess s.cfg addr width with
  | .outside => .next s
  | .undefined off => .fault (.busError off width)
  | .register _ r p =>
    match s.intrudedOn agent with
    | some owner => .refused (.interleaved owner agent)
    | none => { s with session := sessionAfter agent r s.session }.writeEffect r p v

/-- A read by a host agent: the value is what the host observes (R51, R53, R236, R240). -/
def hostRead (agent : Nat) (addr : Dword) (width : Nat) (s : State) : Result :=
  match selectAccess s.cfg addr width with
  | .outside => .next s
  | .undefined off => .fault (.busError off width)
  | .register off r p =>
    match s.intrudedOn agent with
    | some owner => .refused (.interleaved owner agent)
    | none => .next { s with observed := s.observed ++ [⟨agent, off, width, s.readReg r p⟩] }

/-- What one event of the host's side does, in its place in the bus order (R61). A store is one to host memory, the second
of R50's address spaces, also at an address where the register block lies (DESIGN CHOICE, unsafe, log entry 23). -/
def hostEvent : HostEvent → State → Result
  | .write agent addr width v, s => hostWrite agent addr width v s
  | .read agent addr width, s => hostRead agent addr width s
  | .store addr b, s => .next { s with hostMem := s.hostMem.write addr.toNat b }
  | .racingStore addr b, s => .next { s with racing := s.racing ++ [(addr.toNat, b)] }
  | .reset, s => .next s.resetBlock

/-- The agent that may write CMD now without entering another's sequence. -/
def State.commandingAgent (s : State) : Nat :=
  match s.session with
  | none => 0
  | some x => x.agent

/-- A 32-bit write of CMD (R21) by an agent that may do so now. -/
def State.commandWrite (s : State) (word : Nat) : HostEvent :=
  .write s.commandingAgent s.cfg.devBase 32 (BitVec.ofNat 64 word)

end Sys2Proof.Machine
end

