-- ==== Sys2Proof/Machine/Step.lean ====
section
/-! DEFINITION. One step (spec/60_exceptions.md R213): the next event of the bus order, or nothing when the block is
idle. -/

namespace Sys2Proof.Machine

/-- With no event the block is idle, which "is not an error and not a hang" (R213, R221): nothing changes. -/
def step (s : State) : Host.Outcome State Fault Refusal :=
  match s.bus with
  | [] => .next s
  | e :: rest => hostEvent e { s with bus := rest }

/-- The block fetches nothing (R33, R65); its next command is the next CMD write of the bus order. This puts a write of
the table word (its low `nbits` bits) before the events still to come. -/
def State.withFetchWord (s : State) (nbits w : Nat) : State :=
  { s with bus := s.commandWrite (w % 2 ^ nbits) :: s.bus }

end Sys2Proof.Machine
end

