-- ==== Sys2Proof/Machine/Script.lean ====
section
/-! DEFINITION. The host-script notation: statements, start-state directives and pseudo-instructions
(spec/30_encoding.md R77, R78), and a machine launched with them (log entry 7). -/

namespace Sys2Proof.Machine

/-- The registers a `wr` statement may name (R77). -/
inductive ScriptWrite where
  | cmd
  | argA
  | argB
  | handle
  deriving DecidableEq, Repr

/-- The registers an `rd` statement may name (R77). -/
inductive ScriptRead where
  | cmd
  | status
  | argA
  | argB
  | handle
  | result
  deriving DecidableEq, Repr

/-- A statement of a host script (R77). -/
inductive Statement where
  | wr (r : ScriptWrite) (value : Dword)
  | rd (r : ScriptRead)
  deriving DecidableEq, Repr

/-- Offset (R20) and width of a `wr`: "ARG_A and ARG_B writes are 64-bit accesses, CMD and HANDLE 32-bit" (R77). -/
def ScriptWrite.access : ScriptWrite → Nat × Nat
  | .cmd => (0x00, 32)
  | .argA => (0x08, 64)
  | .argB => (0x10, 64)
  | .handle => (0x18, 32)

/-- Offset (R20) and width of an `rd`: "at its width" (R77). -/
def ScriptRead.access : ScriptRead → Nat × Nat
  | .cmd => (0x00, 32)
  | .status => (0x04, 32)
  | .argA => (0x08, 64)
  | .argB => (0x10, 64)
  | .handle => (0x18, 32)
  | .result => (0x20, 64)

/-- The bus access a statement names, made by a host agent (R77). -/
def Statement.event (cfg : Config) (agent : Nat) : Statement → HostEvent
  | .wr r v => .write agent (cfg.devBase + BitVec.ofNat 64 r.access.1) r.access.2 v
  | .rd r => .read agent (cfg.devBase + BitVec.ofNat 64 r.access.1) r.access.2

/-- The pseudo-instructions of R78. -/
inductive Pseudo where
  | ctxCreate
  | ctxDestroy
  | msgCreateText (addr : Dword)
  | msgCreateBuf (addr L : Dword)
  | msgDelete (h : Handle)
  | msgPreprocess (h : Handle)
  | msgDigest (h : Handle)
  | msgGetState (h : Handle)
  | msgGetBitlen (h : Handle)
  | msgGetPadlen (h : Handle)
  | msgReadRaw (h : Handle) (i : Dword)
  | msgReadPadded (h : Handle) (i : Dword)
  | msgReadDigest (h : Handle) (i : Dword)
  | ctxMsgCount
  | ctxMsgAt (i : Dword)
  deriving DecidableEq, Repr

/-- `wr HANDLE, <h>`. -/
def wrHandle (h : Handle) : Statement := .wr .handle (h.setWidth 64)

/-- `wr CMD, <word>`. -/
def wrCmd (word : Word) : Statement := .wr .cmd (word.setWidth 64)

/-- The expansion of a pseudo-instruction, exact (R78). -/
def Pseudo.expand : Pseudo → List Statement
  | .ctxCreate => [wrCmd 0x01]
  | .ctxDestroy => [wrCmd 0x02]
  | .msgCreateText a => [.wr .argA a, wrCmd 0x03]
  | .msgCreateBuf a L => [.wr .argA a, .wr .argB L, wrCmd 0x04]
  | .msgDelete h => [wrHandle h, wrCmd 0x05]
  | .msgPreprocess h => [wrHandle h, wrCmd 0x06]
  | .msgDigest h => [wrHandle h, wrCmd 0x07]
  | .msgGetState h => [wrHandle h, wrCmd 0x08]
  | .msgGetBitlen h => [wrHandle h, wrCmd 0x09]
  | .msgGetPadlen h => [wrHandle h, wrCmd 0x0A]
  | .msgReadRaw h i => [wrHandle h, .wr .argA i, wrCmd 0x0B]
  | .msgReadPadded h i => [wrHandle h, .wr .argA i, wrCmd 0x0C]
  | .msgReadDigest h i => [wrHandle h, .wr .argA i, wrCmd 0x0D]
  | .ctxMsgCount => [wrCmd 0x0E]
  | .ctxMsgAt i => [.wr .argA i, wrCmd 0x0F]

/-- The command a pseudo-instruction issues (R78). -/
def Pseudo.command : Pseudo → Instr
  | .ctxCreate => .ctxCreate
  | .ctxDestroy => .ctxDestroy
  | .msgCreateText _ => .msgCreateText
  | .msgCreateBuf _ _ => .msgCreateBuf
  | .msgDelete _ => .msgDelete
  | .msgPreprocess _ => .msgPreprocess
  | .msgDigest _ => .msgDigest
  | .msgGetState _ => .msgGetState
  | .msgGetBitlen _ => .msgGetBitlen
  | .msgGetPadlen _ => .msgGetPadlen
  | .msgReadRaw _ _ => .msgReadRaw
  | .msgReadPadded _ _ => .msgReadPadded
  | .msgReadDigest _ _ => .msgReadDigest
  | .ctxMsgCount => .ctxMsgCount
  | .ctxMsgAt _ => .ctxMsgAt

/-- The operands a pseudo-instruction names, put into the registers R73 reads them from. -/
def Pseudo.operands (s : State) : Pseudo → State
  | .ctxCreate => s
  | .ctxDestroy => s
  | .msgCreateText a => { s with argA := a }
  | .msgCreateBuf a L => { s with argA := a, argB := L }
  | .msgDelete h => { s with handle := h }
  | .msgPreprocess h => { s with handle := h }
  | .msgDigest h => { s with handle := h }
  | .msgGetState h => { s with handle := h }
  | .msgGetBitlen h => { s with handle := h }
  | .msgGetPadlen h => { s with handle := h }
  | .msgReadRaw h i => { s with handle := h, argA := i }
  | .msgReadPadded h i => { s with handle := h, argA := i }
  | .msgReadDigest h i => { s with handle := h, argA := i }
  | .ctxMsgCount => s
  | .ctxMsgAt i => { s with argA := i }

/-- A start-state directive (R77). -/
inductive Directive where
  /-- `.mem <addr>: <bytes>`. -/
  | mem (addr : Nat) (bytes : List Byte)
  /-- `.text <addr>: "<chars>"`: the ASCII bytes, then one 0x00. -/
  | text (addr : Nat) (chars : List Char)
  deriving DecidableEq, Repr

/-- The bytes of a directive (R77). A character that is not ASCII, of which R77 does not speak, stands for its code point
modulo 256 (DESIGN CHOICE, unsafe, log entry 24). -/
def Directive.bytes : Directive → List Byte
  | .mem _ bs => bs
  | .text _ cs => cs.map (fun c => BitVec.ofNat 8 c.toNat) ++ [0]

/-- The address of a directive's first byte. -/
def Directive.addr : Directive → Nat
  | .mem a _ => a
  | .text a _ => a

/-- The launch memory a list of directives gives (R57, R77): it admits exactly the addresses they list. Where two list one
address the later one holds, and an address is not taken modulo 2^HOST_ADDR_BITS (DESIGN CHOICE, unsafe, log entry 24). -/
def launchMemory (ds : List Directive) : Memory :=
  ds.foldl (fun m d => m.writeAll (d.bytes.zipIdx.map fun p => (d.addr + p.2, p.1))) []

/-- The machine after reset with the parameters of an instance, a launch memory and the events of a host program. -/
def State.launch (cfg : Config) (m : Memory) (events : List HostEvent) : State :=
  { State.reset with cfg := cfg, hostMem := m, bus := events }

end Sys2Proof.Machine
end

