-- ==== Sys2Proof/Safety.lean ====
section
/-! DEFINITION. The invariants of the block (spec/10_state.md R22, R29 to R32, R41) and what a safe run is
(spec/70_reset_and_hazards.md R240). -/

namespace Sys2Proof.Machine

/-- The invariants of a message record (R31, R41 items 2, 3 and 4). -/
structure Message.Valid (cfg : Config) (m : Message) : Prop where
  /-- `raw` is `RawBytes(L) = max(1, ceil(L/8))` bytes. -/
  rawLength : m.raw.length = rawBytes m.bitLength.toNat
  /-- It fits the slot's raw storage. -/
  rawFits : rawBytes m.bitLength.toNat ≤ cfg.maxRawBytes
  /-- "for `L mod 8 ≠ 0`, the low `8 − (L mod 8)` bits of `raw[ceil(L/8) − 1]` are 0". -/
  rawMasked : m.bitLength.toNat % 8 ≠ 0 →
    m.raw.getD ((m.bitLength.toNat + 7) / 8 - 1) 0 &&& (0xFF#8 >>> (m.bitLength.toNat % 8)) = 0
  /-- "for L = 0, `raw = [0x00]`". -/
  rawEmpty : m.bitLength = 0 → m.raw = [0]
  /-- "when `state ≥ Preprocessed`, … `padded = Pad(raw, L)`", and it fits the slot's padded storage. -/
  padded : ∀ P buf, m.phase.padded? = some (P, buf) →
    P = padLen m.bitLength.toNat ∧ buf = pad m.raw m.bitLength.toNat ∧ padBytes m.bitLength.toNat ≤ cfg.maxPadBytes
  /-- "when `state = Digested`, `digest = SHA256Digest(padded)`". -/
  digest : ∀ P buf d, m.phase = .digested P buf d → d = sha256Digest buf

/-- The invariant of the block, held at reset and kept by every step. -/
structure State.Inv (s : State) : Prop where
  /-- The constraints of R9. -/
  config : s.cfg.wf = true
  /-- "no handle twice", and registration order is creation order (R29). -/
  ordered : s.order.Pairwise fun h k => h.toNat < k.toNat
  /-- "length 0 to `MAX_MESSAGES`" (R29). -/
  capacity : s.order.length ≤ s.cfg.maxMessages
  /-- A live handle is not null and was issued (R32). -/
  issued : ∀ h ∈ s.order, 1 ≤ h.toNat ∧ h.toNat < s.nextHandle.toNat
  /-- "a natural in [1, 2^32]" (R30). -/
  counter : 1 ≤ s.nextHandle.toNat ∧ s.nextHandle.toNat ≤ 2 ^ 32
  /-- "`order` is empty whenever `ctx.live = 0`" (R29). -/
  noContext : s.ctxLive = false → s.messages = []
  /-- Every record is valid (R41). -/
  records : ∀ p ∈ s.messages, p.2.Valid s.cfg
  /-- STATUS holds an assigned ERR code, CTX_LIVE as it is, and zeros (R22). -/
  status : ∃ code : ErrCode, s.status = statusWord code s.ctxLive
  /-- Host memory is in canonical form. -/
  memory : s.hostMem.wf = true

/-- The premise of a claim about a run: "no fault recorded, not stuck, no refusal" (R240). -/
def SafeRun (n : Nat) (s : State) : Prop := ∃ t, Sys2Proof.core.run n s = .next t

end Sys2Proof.Machine
end

