-- ==== Sys2Proof/Certificates/Slice0/Obligations.lean ====
section
/-! DEFINITION. The statements for the provers. Each docstring names the rule of spec/ it formalises; STATUS values are
written as the numbers of spec/95_test_vectors.md L2-C. -/

open Sys2Proof Sys2Proof.Machine

/-- The checks a command that takes HANDLE begins with (R209 items 2 and 3): NoContextError, then NotFoundError for a
handle that is not live (R100, R204), with no state change. -/
def handleChecks (i : Instr) : Prop :=
  ∀ s : State,
    (s.ctxLive = false → exec i s = .next { s with status := 0x005, result := 0 }) ∧
    (s.ctxLive = true → s.handle ∉ s.order → exec i s = .next { s with status := 0x103, result := 0 })

/-- A text of at most MAX_RAW_BYTES nonzero bytes, ended by 0x00, stands at ARG_A, and no store in flight falls into it or
its 0x00. -/
def textAt (s : State) (txt : List Byte) : Prop :=
  s.raced s.argA (txt.length + 1) = false ∧ txt.length ≤ s.cfg.maxRawBytes ∧ (∀ b ∈ txt, b ≠ 0) ∧
  (∀ i, ∀ hi : i < txt.length,
    s.hostMem.read ((s.argA.toNat + i) % 2 ^ s.cfg.hostAddrBits) = some txt[i]) ∧
  s.hostMem.read ((s.argA.toNat + txt.length) % 2 ^ s.cfg.hostAddrBits) = some 0

/-! ### Encoding -/

/-- Sanity words of R74, and three illegal ones of R75. -/
def Obligations.OpcodeWordsDecode : Prop :=
  decode 0x00000001 = .ok .ctxCreate ∧ decode 0x00000002 = .ok .ctxDestroy ∧
  decode 0x00000004 = .ok .msgCreateBuf ∧ decode 0x00000006 = .ok .msgPreprocess ∧
  decode 0x00000007 = .ok .msgDigest ∧ decode 0x0000000A = .ok .msgGetPadlen ∧
  decode 0x0000000D = .ok .msgReadDigest ∧ decode 0x0000000F = .ok .ctxMsgAt ∧
  decode 0x00000000 = .error (.unassignedOpcode 0x00) ∧ decode 0x00000010 = .error (.unassignedOpcode 0x10) ∧
  decode 0x00000106 = .error .reservedBits

/-- R74: a word selects a command exactly when it is that command's CMD word, over all 32-bit words. -/
def Obligations.DecodeAcceptsExactlyTheOpcodeMap : Prop :=
  (∀ v i, decode v = .ok i ↔ v = encode i) ∧
  [encode .ctxCreate, encode .ctxDestroy, encode .msgCreateText, encode .msgCreateBuf, encode .msgDelete,
   encode .msgPreprocess, encode .msgDigest, encode .msgGetState, encode .msgGetBitlen, encode .msgGetPadlen,
   encode .msgReadRaw, encode .msgReadPadded, encode .msgReadDigest, encode .ctxMsgCount, encode .ctxMsgAt] =
  [0x00000001, 0x00000002, 0x00000003, 0x00000004, 0x00000005, 0x00000006, 0x00000007, 0x00000008, 0x00000009,
   0x0000000A, 0x0000000B, 0x0000000C, 0x0000000D, 0x0000000E, 0x0000000F]

/-- R75, R202: a word with RSVD ≠ 0, or with OPCODE 0x00 or 0x10 to 0xFF, and no other, is illegal; it completes with
IllegalCommandError whether or not a Context is live and changes no state other than STATUS and RESULT. -/
def Obligations.IllegalWordsCompleteWithIllegalCommandError : Prop :=
  ∀ v : Word,
    ((∃ e, decode v = .error e) ↔
      (v.extractLsb' 8 24 ≠ 0 ∨ v.extractLsb' 0 8 = 0 ∨ 0x10 ≤ (v.extractLsb' 0 8).toNat)) ∧
    (v.extractLsb' 8 24 ≠ 0 ∨ v.extractLsb' 0 8 = 0 ∨ 0x10 ≤ (v.extractLsb' 0 8).toNat →
      ∀ s : State, runWord v s =
        .next { s with status := if s.ctxLive then 0x104 else 0x004, result := 0 })

/-! ### The step -/

/-- R213: a CMD write by an agent that is inside nobody's sequence runs exactly the written word, legal or not, on the
state with the event consumed and the sequence marked as issued; a word that decodes runs its command. Host stores in
flight land afterwards. The event list, the sequence and the stores in flight are the model's (log entries 7, 8 and 12). -/
def Obligations.StepRunsTheDecodedCommand : Prop :=
  ∀ (s : State) (agent : Nat) (v : Dword) (rest : List HostEvent),
    s.bus = .write agent s.cfg.devBase 32 v :: rest →
    ({ s with bus := rest } : State).intrudedOn agent = none →
    step s = mapNext State.landStores
      (runWord (v.setWidth 32) { s with bus := rest, session := some ⟨agent, false, true⟩ }) ∧
    (∀ i : Instr, decode (v.setWidth 32) = .ok i →
      step s = mapNext State.landStores (exec i { s with bus := rest, session := some ⟨agent, false, true⟩ })) ∧
    (∀ e : DecodeError, decode (v.setWidth 32) = .error e →
      step s = .next ({ s with
        bus := rest
        session := some ⟨agent, false, true⟩
        status := if s.ctxLive then 0x104 else 0x004
        result := 0 } : State).landStores)

/-- R213: the block takes no step without an event; idle changes nothing, and is no stop. The event
list is the model's (log entry 7). -/
def Obligations.IdleStepChangesNothing : Prop :=
  ∀ s : State, s.bus = [] → step s = .next s

/-- R213: a command cannot fail to end except by the stuck case of R57, and only the two create commands read host
memory; no command is refused. -/
def Obligations.OnlyCreateCommandsCanStop : Prop :=
  ∀ (i : Instr) (s : State),
    (∃ t, exec i s = .next t) ∨
    ((i = .msgCreateText ∨ i = .msgCreateBuf) ∧
      ∃ a, exec i s = .fault (.stuck a) ∧ s.hostMem.read a = none)

/-! ### The Context commands -/

/-- R105. -/
def Obligations.CtxCreateResult : Prop :=
  encode .ctxCreate = 0x00000001 ∧
  ∀ s : State,
    (s.ctxLive = true → exec .ctxCreate s = .next { s with status := 0x101, result := 0 }) ∧
    (s.ctxLive = false → exec .ctxCreate s =
      .next { s with ctxLive := true, messages := [], status := 0x100, result := 0 })

/-- R106: every Message is released, then the Context; `next_handle` is unchanged. -/
def Obligations.CtxDestroyReleasesEverything : Prop :=
  encode .ctxDestroy = 0x00000002 ∧
  ∀ s : State,
    (s.ctxLive = true → ∃ t, exec .ctxDestroy s = .next t ∧ t.order = [] ∧ (∀ h, t.msg? h = none) ∧
      t = { s with messages := [], ctxLive := false, status := 0x000, result := 0 }) ∧
    (s.ctxLive = false → exec .ctxDestroy s = .next { s with status := 0x005, result := 0 })

/-- R111. -/
def Obligations.CtxMsgCountResult : Prop :=
  encode .ctxMsgCount = 0x0000000E ∧
  ∀ s : State,
    (s.ctxLive = true → exec .ctxMsgCount s =
      .next { s with status := 0x100, result := BitVec.ofNat 64 s.order.length }) ∧
    (s.Inv → s.order.length ≤ s.cfg.maxMessages) ∧
    (s.ctxLive = false → exec .ctxMsgCount s = .next { s with status := 0x005, result := 0 })

/-- R112. -/
def Obligations.CtxMsgAtResult : Prop :=
  encode .ctxMsgAt = 0x0000000F ∧
  ∀ s : State,
    (s.ctxLive = true → ∀ hlt : s.argA.toNat < s.order.length, exec .ctxMsgAt s =
      .next { s with status := 0x100, result := (s.order[s.argA.toNat]).setWidth 64 }) ∧
    (s.ctxLive = true → s.order.length ≤ s.argA.toNat → exec .ctxMsgAt s =
      .next { s with status := 0x107, result := 0 }) ∧
    (s.ctxLive = false → exec .ctxMsgAt s = .next { s with status := 0x005, result := 0 })

/-! ### The Message commands -/

/-- R107: a text of n nonzero bytes ended by 0x00, n ≤ MAX_RAW_BYTES, with a free slot and a handle left. -/
def Obligations.MsgCreateTextResult : Prop :=
  ∀ (s : State) (txt : List Byte),
    s.ctxLive = true → s.messages.length < s.cfg.maxMessages → s.nextHandle.toNat < 2 ^ 32 →
    textAt s txt →
    exec .msgCreateText s = .next { s with
      messages := s.messages ++ [(s.nextHandle.setWidth 32,
        { bitLength := BitVec.ofNat 64 (8 * txt.length)
          raw := if txt = [] then [0] else txt
          phase := .raw })]
      nextHandle := s.nextHandle + 1
      status := 0x100
      result := (s.nextHandle.setWidth 32).setWidth 64 }

/-- R107: AllocationError with no read done when no slot is free or no handle is left, and when no 0x00 occurs in the
first MAX_RAW_BYTES + 1 bytes. -/
def Obligations.MsgCreateTextAllocationError : Prop :=
  ∀ s : State, s.ctxLive = true →
    ((s.cfg.maxMessages ≤ s.messages.length ∨ s.nextHandle.toNat = 2 ^ 32) →
      exec .msgCreateText s = .next { s with status := 0x101, result := 0 }) ∧
    (s.raced s.argA (s.cfg.maxRawBytes + 1) = false →
      (∀ i ≤ s.cfg.maxRawBytes, ∃ b,
        s.hostMem.read ((s.argA.toNat + i) % 2 ^ s.cfg.hostAddrBits) = some b ∧ b ≠ 0) →
      exec .msgCreateText s = .next { s with status := 0x101, result := 0 })

/-- R57, R107: a text whose scan meets a refused address before a 0x00 leaves the block stuck at that address. -/
def Obligations.MsgCreateTextStuckAtRefusedAddress : Prop :=
  ∀ (s : State) (n : Nat),
    s.ctxLive = true → s.messages.length < s.cfg.maxMessages → s.nextHandle.toNat < 2 ^ 32 →
    s.raced s.argA (n + 1) = false → n ≤ s.cfg.maxRawBytes →
    (∀ i < n, ∃ b, s.hostMem.read ((s.argA.toNat + i) % 2 ^ s.cfg.hostAddrBits) = some b ∧ b ≠ 0) →
    s.hostMem.read ((s.argA.toNat + n) % 2 ^ s.cfg.hostAddrBits) = none →
    exec .msgCreateText s = .fault (.stuck ((s.argA.toNat + n) % 2 ^ s.cfg.hostAddrBits))

/-- R237, U3: when a host store falls into a text during MSG_CREATE_TEXT (at a byte k that the scan of host memory as it
stands reaches), each byte read is any value: of the n bytes the window admits, the free values before the first 0x00
make the text, and without one the text is unterminated, or the block stuck at the refused address. What counts as the
text's buffer and the numbering of the free values are the model's (log entry 5). -/
def Obligations.MsgCreateTextRacedBytesAreFree : Prop :=
  ∀ (s : State) (k n : Nat),
    s.ctxLive = true → s.messages.length < s.cfg.maxMessages → s.nextHandle.toNat < 2 ^ 32 →
    k ≤ s.cfg.maxRawBytes →
    (∀ i < k, ∃ b, s.hostMem.read ((s.argA.toNat + i) % 2 ^ s.cfg.hostAddrBits) = some b ∧ b ≠ 0) →
    s.raced s.argA (k + 1) = true →
    n ≤ s.cfg.maxRawBytes + 1 →
    (∀ i < n, (s.hostMem.read ((s.argA.toNat + i) % 2 ^ s.cfg.hostAddrBits)).isSome = true) →
    (n < s.cfg.maxRawBytes + 1 → s.hostMem.read ((s.argA.toNat + n) % 2 ^ s.cfg.hostAddrBits) = none) →
    ∀ bytes txt : List Byte,
      bytes = (List.range n).map (fun i => Config.freeByte (s.fresh + i)) → txt = bytes.takeWhile (fun b => b ≠ 0) →
      exec .msgCreateText s =
        if 0 ∈ bytes then
          .next { s with
            messages := s.messages ++ [(s.nextHandle.setWidth 32,
              { bitLength := BitVec.ofNat 64 (8 * txt.length)
                raw := if txt = [] then [0] else txt
                phase := .raw })]
            nextHandle := s.nextHandle + 1
            fresh := s.fresh + (s.cfg.maxRawBytes + 1)
            status := 0x100
            result := (s.nextHandle.setWidth 32).setWidth 64 }
        else if n = s.cfg.maxRawBytes + 1 then
          .next { s with fresh := s.fresh + (s.cfg.maxRawBytes + 1), status := 0x101, result := 0 }
        else .fault (.stuck ((s.argA.toNat + n) % 2 ^ s.cfg.hostAddrBits))

/-- R108: ceil(L/8) admitted bytes are read and stored through `RawStore`. -/
def Obligations.MsgCreateBufResult : Prop :=
  ∀ (s : State) (src : List Byte),
    s.ctxLive = true → s.messages.length < s.cfg.maxMessages → s.nextHandle.toNat < 2 ^ 32 →
    max 1 ((s.argB.toNat + 7) / 8) ≤ s.cfg.maxRawBytes →
    s.raced s.argA ((s.argB.toNat + 7) / 8) = false →
    src.length = (s.argB.toNat + 7) / 8 →
    (∀ i, ∀ hi : i < src.length,
      s.hostMem.read ((s.argA.toNat + i) % 2 ^ s.cfg.hostAddrBits) = some src[i]) →
    exec .msgCreateBuf s = .next { s with
      messages := s.messages ++ [(s.nextHandle.setWidth 32,
        { bitLength := s.argB, raw := rawStore src s.argB.toNat, phase := .raw })]
      nextHandle := s.nextHandle + 1
      status := 0x100
      result := (s.nextHandle.setWidth 32).setWidth 64 }

/-- R102, R108: AllocationError, with no read done, exactly when there is no free slot, no handle left, or too little raw
storage. -/
def Obligations.MsgCreateBufAllocationError : Prop :=
  ∀ s : State, s.ctxLive = true →
    (exec .msgCreateBuf s = .next { s with status := 0x101, result := 0 } ↔
      (s.cfg.maxMessages ≤ s.messages.length ∨ 2 ^ 32 ≤ s.nextHandle.toNat ∨
        s.cfg.maxRawBytes < max 1 ((s.argB.toNat + 7) / 8)))

/-- R57, R108: a buffer with a refused address leaves the block stuck at the first such address. -/
def Obligations.MsgCreateBufStuckAtRefusedAddress : Prop :=
  ∀ (s : State) (n : Nat),
    s.ctxLive = true → s.messages.length < s.cfg.maxMessages → s.nextHandle.toNat < 2 ^ 32 →
    max 1 ((s.argB.toNat + 7) / 8) ≤ s.cfg.maxRawBytes → n < (s.argB.toNat + 7) / 8 →
    (∀ i < n, (s.hostMem.read ((s.argA.toNat + i) % 2 ^ s.cfg.hostAddrBits)).isSome = true) →
    s.hostMem.read ((s.argA.toNat + n) % 2 ^ s.cfg.hostAddrBits) = none →
    exec .msgCreateBuf s = .fault (.stuck ((s.argA.toNat + n) % 2 ^ s.cfg.hostAddrBits))

/-- R237, U3: when a host store falls into the source buffer during MSG_CREATE_BUF, each byte read is any value: the
Message holds free values, masked as ever. The numbering of the free values is the model's (log entry 5). -/
def Obligations.MsgCreateBufRacedBytesAreFree : Prop :=
  ∀ s : State,
    s.ctxLive = true → s.messages.length < s.cfg.maxMessages → s.nextHandle.toNat < 2 ^ 32 →
    max 1 ((s.argB.toNat + 7) / 8) ≤ s.cfg.maxRawBytes →
    s.raced s.argA ((s.argB.toNat + 7) / 8) = true →
    (∀ i < (s.argB.toNat + 7) / 8,
      (s.hostMem.read ((s.argA.toNat + i) % 2 ^ s.cfg.hostAddrBits)).isSome = true) →
    exec .msgCreateBuf s = .next { s with
      messages := s.messages ++ [(s.nextHandle.setWidth 32,
        { bitLength := s.argB
          raw := rawStore ((List.range ((s.argB.toNat + 7) / 8)).map fun i => Config.freeByte (s.fresh + i))
            s.argB.toNat
          phase := .raw })]
      nextHandle := s.nextHandle + 1
      fresh := s.fresh + (s.argB.toNat + 7) / 8
      status := 0x100
      result := (s.nextHandle.setWidth 32).setWidth 64 }

/-- R109: the handle is unregistered and its record released, the others keep their order and their records; a handle
that is not live gives NotFoundError with no state change; deleting the same handle twice gives OK then NOT_FOUND. -/
def Obligations.MsgDeleteResult : Prop :=
  encode .msgDelete = 0x00000005 ∧ handleChecks .msgDelete ∧
  ∀ s : State, s.ctxLive = true → s.handle ∈ s.order → ∃ t, exec .msgDelete s = .next t ∧
    t.order = s.order.filter (fun h => h ≠ s.handle) ∧ t.msg? s.handle = none ∧
    (∀ h, h ≠ s.handle → t.msg? h = s.msg? h) ∧
    t = { s with messages := t.messages, status := 0x100, result := 0 } ∧
    exec .msgDelete t = .next { t with status := 0x103, result := 0 }

/-- R123: a Raw Message whose padded buffer fits is padded; one that does not fit stays Raw; a Preprocessed or Digested
one is left as it is, with success, whatever the capacity. -/
def Obligations.MsgPreprocessResult : Prop :=
  encode .msgPreprocess = 0x00000006 ∧ handleChecks .msgPreprocess ∧
  ∀ (s : State) (m : Message), s.ctxLive = true → s.msg? s.handle = some m →
    (m.phase = .raw → padBytes m.bitLength.toNat ≤ s.cfg.maxPadBytes →
      ∃ t, exec .msgPreprocess s = .next t ∧
        t.msg? s.handle = some ⟨m.bitLength, m.raw,
          .preprocessed (padLen m.bitLength.toNat) (pad m.raw m.bitLength.toNat)⟩ ∧
        (∀ h, h ≠ s.handle → t.msg? h = s.msg? h) ∧ t.order = s.order ∧
        t = { s with messages := t.messages, status := 0x100, result := 0 }) ∧
    (m.phase = .raw → s.cfg.maxPadBytes < padBytes m.bitLength.toNat → exec .msgPreprocess s =
      .next { s with status := 0x101, result := 0 }) ∧
    (m.phase ≠ .raw → exec .msgPreprocess s = .next { s with status := 0x100, result := 0 })

/-- R153: a Preprocessed Message of whole chunks gets `SHA256Digest` of its padded buffer, whatever the engine registers
held before; a Raw one gives NotPreprocessedError and is unchanged; a Digested one is left as it is, with success. -/
def Obligations.MsgDigestResult : Prop :=
  encode .msgDigest = 0x00000007 ∧ handleChecks .msgDigest ∧
  ∀ (s : State) (m : Message), s.ctxLive = true → s.msg? s.handle = some m →
    (∀ P buf, m.phase = .preprocessed P buf → buf.length = P / 8 → P % 512 = 0 →
      ∃ t, exec .msgDigest s = .next t ∧
        t.msg? s.handle = some { m with phase := .digested P buf (sha256Digest buf) } ∧
        (∀ h, h ≠ s.handle → t.msg? h = s.msg? h) ∧ t.order = s.order ∧
        t = { s with messages := t.messages, engine := t.engine, status := 0x100, result := 0 }) ∧
    (m.phase = .raw → exec .msgDigest s = .next { s with status := 0x102, result := 0 }) ∧
    (∀ P buf d, m.phase = .digested P buf d → exec .msgDigest s = .next { s with status := 0x100, result := 0 })

/-! ### Read-back -/

/-- R170. -/
def Obligations.MsgGetStateResult : Prop :=
  encode .msgGetState = 0x00000008 ∧ handleChecks .msgGetState ∧
  ∀ (s : State) (m : Message), s.ctxLive = true → s.msg? s.handle = some m →
    exec .msgGetState s = .next { s with status := 0x100, result :=
      match m.phase with
      | .raw => 0
      | .preprocessed _ _ => 1
      | .digested _ _ _ => 2 }

/-- R171: all 64 bits, in every state; right after MSG_CREATE_TEXT, 8 times the number of characters. -/
def Obligations.MsgGetBitlenResult : Prop :=
  encode .msgGetBitlen = 0x00000009 ∧ handleChecks .msgGetBitlen ∧
  (∀ (s : State) (m : Message), s.ctxLive = true → s.msg? s.handle = some m →
    exec .msgGetBitlen s = .next { s with status := 0x100, result := m.bitLength }) ∧
  ∀ (s t : State) (txt : List Byte), s.Inv → textAt s txt → exec .msgCreateText s = .next t → t.err = 0 →
    ∃ u, exec .msgGetBitlen { t with handle := t.result.setWidth 32 } = .next u ∧
      u.status = 0x100 ∧ u.result.toNat = 8 * txt.length

/-- R172: P as far as 64 bits hold it; a longer P has no stated RESULT, and the command completes with some value. -/
def Obligations.MsgGetPadlenResult : Prop :=
  encode .msgGetPadlen = 0x0000000A ∧ handleChecks .msgGetPadlen ∧
  ∀ (s : State) (m : Message), s.ctxLive = true → s.msg? s.handle = some m →
    (m.phase = .raw → exec .msgGetPadlen s = .next { s with status := 0x102, result := 0 }) ∧
    (∀ P buf, m.phase = .preprocessed P buf →
      (P < 2 ^ 64 → exec .msgGetPadlen s = .next { s with status := 0x100, result := BitVec.ofNat 64 P }) ∧
      ∃ value, exec .msgGetPadlen s = .next { s with status := 0x100, result := value }) ∧
    (∀ P buf d, m.phase = .digested P buf d →
      (P < 2 ^ 64 → exec .msgGetPadlen s = .next { s with status := 0x100, result := BitVec.ofNat 64 P }) ∧
      ∃ value, exec .msgGetPadlen s = .next { s with status := 0x100, result := value }) ∧
    (m.Valid s.cfg → ∀ P buf, m.phase.padded? = some (P, buf) → 0 < P ∧ P % 512 = 0)

/-- R173. -/
def Obligations.MsgReadRawResult : Prop :=
  encode .msgReadRaw = 0x0000000B ∧ handleChecks .msgReadRaw ∧
  ∀ (s : State) (m : Message), s.ctxLive = true → s.msg? s.handle = some m →
    (m.raw.length = max 1 ((m.bitLength.toNat + 7) / 8) → ∀ hlt : s.argA.toNat < m.raw.length,
      exec .msgReadRaw s = .next { s with status := 0x100, result := (m.raw[s.argA.toNat]).setWidth 64 }) ∧
    (m.Valid s.cfg → m.bitLength = 0 → s.argA = 0 →
      exec .msgReadRaw s = .next { s with status := 0x100, result := 0x00 }) ∧
    (max 1 ((m.bitLength.toNat + 7) / 8) ≤ s.argA.toNat →
      exec .msgReadRaw s = .next { s with status := 0x107, result := 0 })

/-- R174: the state is checked before the range. -/
def Obligations.MsgReadPaddedResult : Prop :=
  encode .msgReadPadded = 0x0000000C ∧ handleChecks .msgReadPadded ∧
  ∀ (s : State) (m : Message), s.ctxLive = true → s.msg? s.handle = some m →
    (m.phase = .raw → exec .msgReadPadded s = .next { s with status := 0x102, result := 0 }) ∧
    (∀ P buf, m.phase.padded? = some (P, buf) →
      (buf.length = P / 8 → ∀ hlt : s.argA.toNat < buf.length,
        exec .msgReadPadded s = .next { s with status := 0x100, result := (buf[s.argA.toNat]).setWidth 64 }) ∧
      (P / 8 ≤ s.argA.toNat → exec .msgReadPadded s = .next { s with status := 0x107, result := 0 }) ∧
      (m.Valid s.cfg → s.argA.toNat = P / 8 - 1 → exec .msgReadPadded s =
        .next { s with status := 0x100, result := BitVec.ofNat 64 (m.bitLength.toNat % 256) }))

/-- R175: the state is checked before the range. -/
def Obligations.MsgReadDigestResult : Prop :=
  encode .msgReadDigest = 0x0000000D ∧ handleChecks .msgReadDigest ∧
  ∀ (s : State) (m : Message), s.ctxLive = true → s.msg? s.handle = some m →
    ((m.phase = .raw ∨ ∃ P buf, m.phase = .preprocessed P buf) →
      exec .msgReadDigest s = .next { s with status := 0x106, result := 0 }) ∧
    (∀ P buf d, m.phase = .digested P buf d →
      (∀ hlt : s.argA.toNat < 32,
        exec .msgReadDigest s = .next { s with status := 0x100, result := (d[s.argA.toNat]).setWidth 64 }) ∧
      (32 ≤ s.argA.toNat → exec .msgReadDigest s = .next { s with status := 0x107, result := 0 }))

/-! ### Errors and completion -/

/-- R203: every legal command other than CTX_CREATE completes with NoContextError while no Context is live. -/
def Obligations.NoContextErrorBeforeEverythingElse : Prop :=
  ∀ (i : Instr) (s : State), s.ctxLive = false → i ≠ .ctxCreate →
    exec i s = .next { s with status := 0x005, result := 0 }

/-- R210: a command that raises any error changes no state element other than STATUS and RESULT, and RESULT becomes 0.
(`fresh` is the model's own counter, log entry 5.) -/
def Obligations.ErrorsChangeNothingElse : Prop :=
  ∀ (v : Word) (s t : State), runWord v s = .next t → t.err ≠ 0 →
    t = { s with status := t.status, result := 0, fresh := t.fresh }

/-- R22, R200: after every command STATUS holds a code 0 to 7, CTX_LIVE as `ctx.live` is after it, and zeros. -/
def Obligations.StatusAfterEveryCommand : Prop :=
  ∀ (v : Word) (s t : State), runWord v s = .next t →
    t.err.toNat ≤ 7 ∧ t.status.extractLsb' 4 4 = 0 ∧ t.status.extractLsb' 9 23 = 0 ∧
    t.statusCtxLive = t.ctxLive

/-- The frame of every command, legal or not: ARG_A, ARG_B and HANDLE (R23 to R25: "never written by the block"), the
parameters, host memory (R55), and the host's side. -/
def Obligations.CommandsNeverWriteTheHostsSide : Prop :=
  ∀ (v : Word) (s t : State), runWord v s = .next t →
    t.argA = s.argA ∧ t.argB = s.argB ∧ t.handle = s.handle ∧ t.cfg = s.cfg ∧ t.hostMem = s.hostMem ∧
    t.racing = s.racing ∧ t.bus = s.bus ∧ t.session = s.session ∧ t.observed = s.observed

/-- The frame of the read-back and iteration commands (R60, 43_readback.md): only STATUS and RESULT change. -/
def Obligations.ReadBackChangesOnlyStatusAndResult : Prop :=
  ∀ (i : Instr) (s : State),
    i ∈ [Instr.msgGetState, .msgGetBitlen, .msgGetPadlen, .msgReadRaw, .msgReadPadded, .msgReadDigest, .ctxMsgCount,
      .ctxMsgAt] →
    ∃ t, exec i s = .next t ∧ t = { s with status := t.status, result := t.result }

/-- Isolation: a command other than CTX_CREATE and CTX_DESTROY leaves every live Message alone that HANDLE does not
name. -/
def Obligations.OtherMessagesAreUntouched : Prop :=
  ∀ (i : Instr) (s t : State) (h : Handle), i ≠ .ctxCreate → i ≠ .ctxDestroy → exec i s = .next t →
    h ∈ s.order → h ≠ s.handle → t.msg? h = s.msg? h

/-- R41 items 1 and 5: over any step, a Message's state moves forward by at most one and its fields never change once
valid. -/
def Obligations.MessageLifecycleIsForwardOnly : Prop :=
  ∀ (s t : State) (h : Handle) (m m' : Message), step s = .next t →
    s.msg? h = some m → t.msg? h = some m' →
    m.phase.code.toNat ≤ m'.phase.code.toNat ∧ m'.phase.code.toNat ≤ m.phase.code.toNat + 1 ∧
    m'.bitLength = m.bitLength ∧ m'.raw = m.raw ∧
    (m.phase.padded? = none ∨ m'.phase.padded? = m.phase.padded?) ∧
    (m.phase.digest? = none ∨ m'.phase.digest? = m.phase.digest?)

/-- R29, R30, R32: a command keeps the collection in order and issues nothing, or appends one handle never issued before
and not null, and increments the counter. -/
def Obligations.HandlesAreNeverReused : Prop :=
  ∀ (v : Word) (s t : State), s.Inv → runWord v s = .next t →
    (t.nextHandle = s.nextHandle ∧ t.order.Sublist s.order) ∨
    (t.nextHandle.toNat = s.nextHandle.toNat + 1 ∧
      ∃ h : Handle, t.order = s.order ++ [h] ∧ h.toNat = s.nextHandle.toNat ∧ h ≠ 0 ∧ h ∉ s.order ∧
        t.result = h.setWidth 64)

/-! ### Raw storage and padding -/

/-- R101, R12: `RawStore(src, L)` is max(1, ceil(L/8)) bytes; message bits 0 to L-1 are those of `src`, every later bit
is 0. -/
def Obligations.RawStoreKeepsExactlyTheMessageBits : Prop :=
  ∀ (src : List Byte) (L : Nat), (L + 7) / 8 ≤ src.length →
    (rawStore src L).length = max 1 ((L + 7) / 8) ∧
    (∀ i < L, messageBit (rawStore src L) i = messageBit src i) ∧
    (∀ i, L ≤ i → messageBit (rawStore src L) i = false)

/-- R121: the padded length is the smallest multiple of 512 that is at least L + 65; a whole number of 64-byte chunks. -/
def Obligations.PadLenIsTheSmallestMultiple : Prop :=
  ∀ L : Nat, padLen L % 512 = 0 ∧ L + 65 ≤ padLen L ∧
    (∀ n, n % 512 = 0 → L + 65 ≤ n → padLen L ≤ n) ∧
    padLen L = 512 * ((L + 64) / 512 + 1) ∧ padLen L - L - 65 ≤ 511 ∧ padBytes L * 8 = padLen L

/-- R122, R124: the padded buffer bit by bit: the content, one 1 bit, zeros, and the 64-bit length most significant bit
first. -/
def Obligations.PadIsContentOneZerosLength : Prop :=
  ∀ (raw : List Byte) (L : Nat), L < 2 ^ 64 → raw.length = rawBytes L →
    (∀ i, L ≤ i → messageBit raw i = false) →
    (pad raw L).length = padBytes L ∧
    (∀ i < L, messageBit (pad raw L) i = messageBit raw i) ∧
    messageBit (pad raw L) L = true ∧
    (∀ i, L < i → i < padLen L - 64 → messageBit (pad raw L) i = false) ∧
    (∀ i < 64, messageBit (pad raw L) (padLen L - 64 + i) = L.testBit (63 - i))

/-- R125 item 2, R153: preprocessing or digesting twice yields the same record as once; the second time, completing with
success, changes nothing at all. -/
def Obligations.PreprocessAndDigestAreIdempotent : Prop :=
  ∀ (i : Instr) (s t : State), i = .msgPreprocess ∨ i = .msgDigest →
    exec i s = .next t → t.err = 0 → exec i t = .next t

/-! ### The engine -/

/-- R140, R141: Ch selects, Maj takes the majority, bit by bit. -/
def Obligations.ChSelectsAndMajVotes : Prop :=
  ∀ (x y z : Word) (i : Nat), i < 32 →
    (ch x y z).getLsbD i = (if x.getLsbD i then y.getLsbD i else z.getLsbD i) ∧
    (maj x y z).getLsbD i =
      decide (2 ≤ (x.getLsbD i).toNat + (y.getLsbD i).toNat + (z.getLsbD i).toNat)

/-- R142 to R145: the four sigma functions, bit by bit (rotations as R13 has them); the shifts bring in zeros. -/
def Obligations.SigmaFunctionsBitByBit : Prop :=
  ∀ (x : Word) (i : Nat), i < 32 →
    (bigSigma0 x).getLsbD i =
      ((x.getLsbD ((i + 2) % 32) ^^ x.getLsbD ((i + 13) % 32)) ^^ x.getLsbD ((i + 22) % 32)) ∧
    (bigSigma1 x).getLsbD i =
      ((x.getLsbD ((i + 6) % 32) ^^ x.getLsbD ((i + 11) % 32)) ^^ x.getLsbD ((i + 25) % 32)) ∧
    (smallSigma0 x).getLsbD i =
      ((x.getLsbD ((i + 7) % 32) ^^ x.getLsbD ((i + 18) % 32)) ^^ (decide (i + 3 < 32) && x.getLsbD (i + 3))) ∧
    (smallSigma1 x).getLsbD i =
      ((x.getLsbD ((i + 17) % 32) ^^ x.getLsbD ((i + 19) % 32)) ^^ (decide (i + 10 < 32) && x.getLsbD (i + 10)))

/-- R147, R148: after load and expansion, from whatever the registers held, every schedule word is the rules'. -/
def Obligations.ScheduleWordsAreTheRules : Prop :=
  ∀ (B : List Byte) (e : Engine), B.length = 64 →
    (∀ t < 16, (e.schedule B).w t =
      B.getD (4 * t) 0 ++ B.getD (4 * t + 1) 0 ++ B.getD (4 * t + 2) 0 ++ B.getD (4 * t + 3) 0) ∧
    (∀ t, 16 ≤ t → t < 64 → (e.schedule B).w t =
      smallSigma1 ((e.schedule B).w (t - 2)) +
      (e.schedule B).w (t - 7) +
      smallSigma0 ((e.schedule B).w (t - 15)) +
      (e.schedule B).w (t - 16))

/-- R149: one round, all eight words at once from the old values, with `K[t]` and `W[t]`. -/
def Obligations.RoundRule : Prop :=
  ∀ (e : Engine) (t : Nat), t < 64 →
    ∃ T1 T2 : Word,
      T1 = e.work.h + bigSigma1 e.work.e + ch e.work.e e.work.f e.work.g + romK t + e.w t ∧
      T2 = bigSigma0 e.work.a + maj e.work.a e.work.b e.work.c ∧
      (e.round t).work = ⟨T1 + T2, e.work.a, e.work.b, e.work.c, e.work.d + T1, e.work.e, e.work.f, e.work.g⟩ ∧
      (e.round t).T1 = T1 ∧ (e.round t).T2 = T2 ∧ (e.round t).W = e.W ∧ (e.round t).H = e.H

/-- R150, R152: a chunk adds, to each word of the running hash it started from, the word that 64 rounds from that hash
leave. -/
def Obligations.ChunkFoldsIntoTheRunningHash : Prop :=
  ∀ (buf : List Byte) (e : Engine) (c : Nat),
    ∃ f : Engine, f.compress = f.rounds 64 ∧ f.work = ⟨e.H[0], e.H[1], e.H[2], e.H[3], e.H[4], e.H[5], e.H[6], e.H[7]⟩ ∧
      (∀ t < 64, f.w t = (e.schedule (chunkOf buf c)).w t) ∧
      (e.chunk buf c).H =
        #v[e.H[0] + f.compress.work.a, e.H[1] + f.compress.work.b, e.H[2] + f.compress.work.c,
           e.H[3] + f.compress.work.d, e.H[4] + f.compress.work.e, e.H[5] + f.compress.work.f,
           e.H[6] + f.compress.work.g, e.H[7] + f.compress.work.h]

/-- R151: digest byte 4i + k is `(H[i] >> (8 × (3 − k))) mod 256`. -/
def Obligations.SerialisationIsBigEndian : Prop :=
  ∀ (H : Vector Word 8) (i k : Nat) (hi : i < 8) (hk : k < 4),
    ((serialise H)[4 * i + k]'(by omega)).toNat = (H[i].toNat >>> (8 * (3 - k))) % 256

/-- R152: every engine register is written before it is read: the running hash never depends on what the registers held,
and after at least one chunk no register does. -/
def Obligations.EngineRegistersAreWrittenBeforeRead : Prop :=
  ∀ (buf : List Byte) (n : Nat) (e e' : Engine),
    (e.run buf n).H = (e'.run buf n).H ∧ (1 ≤ n → e.run buf n = e'.run buf n)

/-- R146: chunks are processed strictly in order, each from the running hash the previous one left: what follows a chunk
in the buffer has no effect on the hash after it, and one more chunk starts from that hash. The chunk counter is left at
the last chunk, as log entry 17 reads R33. -/
def Obligations.ChunksAreASequentialReduction : Prop :=
  ∀ (buf buf' : List Byte) (n : Nat) (e : Engine), buf.length = 64 * n →
    e.run (buf ++ buf') n = e.run buf n ∧
    e.run (buf ++ buf') (n + 1) = (e.run buf n).chunk (buf ++ buf') n ∧
    (e.run (buf ++ buf') (n + 1)).c = n

/-- R38, R39, R152: the 64 words of the K ROM and the 8 of the H0 ROM; a digest starts from those 8, whatever the engine
registers hold, and is the serialised hash after all chunks. -/
def Obligations.RomWordsAndTheDigestFromThem : Prop :=
  (List.range 64).map romK =
    [0x428a2f98, 0x71374491, 0xb5c0fbcf, 0xe9b5dba5, 0x3956c25b, 0x59f111f1, 0x923f82a4, 0xab1c5ed5] ++
    [0xd807aa98, 0x12835b01, 0x243185be, 0x550c7dc3, 0x72be5d74, 0x80deb1fe, 0x9bdc06a7, 0xc19bf174] ++
    [0xe49b69c1, 0xefbe4786, 0x0fc19dc6, 0x240ca1cc, 0x2de92c6f, 0x4a7484aa, 0x5cb0a9dc, 0x76f988da] ++
    [0x983e5152, 0xa831c66d, 0xb00327c8, 0xbf597fc7, 0xc6e00bf3, 0xd5a79147, 0x06ca6351, 0x14292967] ++
    [0x27b70a85, 0x2e1b2138, 0x4d2c6dfc, 0x53380d13, 0x650a7354, 0x766a0abb, 0x81c2c92e, 0x92722c85] ++
    [0xa2bfe8a1, 0xa81a664b, 0xc24b8b70, 0xc76c51a3, 0xd192e819, 0xd6990624, 0xf40e3585, 0x106aa070] ++
    [0x19a4c116, 0x1e376c08, 0x2748774c, 0x34b0bcb5, 0x391c0cb3, 0x4ed8aa4a, 0x5b9cca4f, 0x682e6ff3] ++
    [0x748f82ee, 0x78a5636f, 0x84c87814, 0x8cc70208, 0x90befffa, 0xa4506ceb, 0xbef9a3f7, 0xc67178f2] ∧
  (∀ (buf : List Byte) (e : Engine), (e.run buf 0).H =
    #v[0x6a09e667, 0xbb67ae85, 0x3c6ef372, 0xa54ff53a, 0x510e527f, 0x9b05688c, 0x1f83d9ab, 0x5be0cd19] ∧
    (e.run buf 0).H = romH0) ∧
  ∀ (buf : List Byte) (e : Engine), sha256Digest buf = serialise (e.run buf (buf.length / 64)).H

/-- R152, R219, L1-7: preprocessing and digesting Messages of different handles gives the same records in either order. -/
def Obligations.MessageOrderDoesNotMatter : Prop :=
  ∀ (i j : Instr) (s a b a' b' : State) (h k : Handle),
    (i = .msgPreprocess ∨ i = .msgDigest) → (j = .msgPreprocess ∨ j = .msgDigest) → h ≠ k →
    exec i { s with handle := h } = .next a → exec j { a with handle := k } = .next b →
    exec j { s with handle := k } = .next a' → exec i { a' with handle := h } = .next b' →
    b.messages = b'.messages

/-! ### The register block and the host's side -/

/-- R53: the defined accesses are the 32-bit ones at 4-byte-aligned offsets and the 64-bit ones at 8-byte-aligned offsets
other than 0x00 and 0x18; every other access, and no defined one, is the fault `BusError(offset, width)`. -/
def Obligations.UndefinedAccessesAreBusErrors : Prop :=
  ∀ (s : State) (agent : Nat) (addr v : Dword) (width off : Nat) (rest : List HostEvent),
    off < 0x100 → addr.toNat = s.cfg.devBase.toNat + off →
    (s.bus = .write agent addr width v :: rest ∨ s.bus = .read agent addr width :: rest) →
    (step s = .fault (.busError (BitVec.ofNat 8 off) width) ↔
      ¬ ((width = 32 ∧ off % 4 = 0) ∨ (width = 64 ∧ off % 8 = 0 ∧ off ≠ 0x00 ∧ off ≠ 0x18)))

/-- An access none of whose bytes lies in the register block, and which does not wrap round the top of the address space. -/
def outsideBlock (cfg : Config) (addr : Dword) (width : Nat) : Prop :=
  (addr.toNat < cfg.devBase.toNat ∧ addr.toNat + (width + 7) / 8 ≤ cfg.devBase.toNat) ∨
  (cfg.devBase.toNat + 0x100 ≤ addr.toNat ∧ addr.toNat + (width + 7) / 8 ≤ 2 ^ 64)

/-- R20, R21, R27, R54, R60: what a defined read returns; it changes nothing of the block. A read wholly outside the block
only consumes the event (log entry 11). The values read and the event list are the model's (log entries 7 and 15). -/
def Obligations.RegisterReadsReturnTheRegister : Prop :=
  (∀ (s : State) (agent : Nat) (addr : Dword) (width off : Nat) (rest : List HostEvent),
    off < 0x100 → addr.toNat = s.cfg.devBase.toNat + off →
    s.bus = .read agent addr width :: rest → ({ s with bus := rest } : State).intrudedOn agent = none →
    ((width = 32 ∧ off % 4 = 0) ∨ (width = 64 ∧ off % 8 = 0 ∧ off ≠ 0x00 ∧ off ≠ 0x18)) →
    ∃ value : Dword,
      step s = .next { s with
        bus := rest, observed := s.observed ++ [⟨agent, BitVec.ofNat 8 off, width, value⟩] } ∧
      value.toNat =
        if off = 0x04 then s.status.toNat
        else if off = 0x08 then (if width = 64 then s.argA.toNat else s.argA.toNat % 2 ^ 32)
        else if off = 0x0C then s.argA.toNat / 2 ^ 32
        else if off = 0x10 then (if width = 64 then s.argB.toNat else s.argB.toNat % 2 ^ 32)
        else if off = 0x14 then s.argB.toNat / 2 ^ 32
        else if off = 0x18 then s.handle.toNat
        else if off = 0x20 then (if width = 64 then s.result.toNat else s.result.toNat % 2 ^ 32)
        else if off = 0x24 then s.result.toNat / 2 ^ 32
        else 0) ∧
  ∀ (s : State) (agent : Nat) (addr : Dword) (width : Nat) (rest : List HostEvent),
    s.bus = .read agent addr width :: rest → outsideBlock s.cfg addr width → step s = .next { s with bus := rest }

/-- R20, R27, R51, R54: what a defined write other than of CMD does: it replaces the addressed bits of ARG_A, ARG_B or
HANDLE, and everything else ignores it. A write wholly outside the block only consumes the event (log entry 11). The
sequence and the event list are the model's (log entries 7 and 8). -/
def Obligations.RegisterWritesReplaceTheAddressedBits : Prop :=
  (∀ (s : State) (agent : Nat) (addr v : Dword) (width off : Nat) (rest : List HostEvent),
    off < 0x100 → off ≠ 0x00 → addr.toNat = s.cfg.devBase.toNat + off →
    s.bus = .write agent addr width v :: rest → ({ s with bus := rest } : State).intrudedOn agent = none →
    ((width = 32 ∧ off % 4 = 0) ∨ (width = 64 ∧ off % 8 = 0 ∧ off ≠ 0x18)) →
    ∃ t, step s = .next t ∧
      t = { s with bus := rest, session := t.session, argA := t.argA, argB := t.argB, handle := t.handle } ∧
      t.argA.toNat =
        (if off = 0x08 then
          (if width = 64 then v.toNat else s.argA.toNat / 2 ^ 32 * 2 ^ 32 + v.toNat % 2 ^ 32)
        else if off = 0x0C then v.toNat % 2 ^ 32 * 2 ^ 32 + s.argA.toNat % 2 ^ 32
        else s.argA.toNat) ∧
      t.argB.toNat =
        (if off = 0x10 then
          (if width = 64 then v.toNat else s.argB.toNat / 2 ^ 32 * 2 ^ 32 + v.toNat % 2 ^ 32)
        else if off = 0x14 then v.toNat % 2 ^ 32 * 2 ^ 32 + s.argB.toNat % 2 ^ 32
        else s.argB.toNat) ∧
      t.handle.toNat = (if off = 0x18 then v.toNat % 2 ^ 32 else s.handle.toNat)) ∧
  ∀ (s : State) (agent : Nat) (addr v : Dword) (width : Nat) (rest : List HostEvent),
    s.bus = .write agent addr width v :: rest → outsideBlock s.cfg addr width → step s = .next { s with bus := rest }

/-- R236, R215: an access of another agent inside an open command sequence is refused: between an operand write and the
CMD write, and between the CMD write and a later read of STATUS or RESULT, whole or half, for that command. That reads are refused too is the
reading of log entry 8. -/
def Obligations.InterleavedAccessesAreRefused : Prop :=
  ∀ (s : State) (owner intruder : Nat) (addr v : Dword) (width off : Nat) (ahead after : List HostEvent)
      (x : Session) (e : HostEvent),
    off < 0x100 → addr.toNat = s.cfg.devBase.toNat + off →
    ((width = 32 ∧ off % 4 = 0) ∨ (width = 64 ∧ off % 8 = 0 ∧ off ≠ 0x00 ∧ off ≠ 0x18)) →
    (e = .write intruder addr width v ∨ e = .read intruder addr width) →
    s.session = some x → x.agent = owner → intruder ≠ owner →
    (∀ a ∈ ahead, a ≠ .reset) →
    s.cfg.devBase.toNat % 0x100 = 0 →
    ((x.operandsWritten = true ∧ ∃ w, s.bus = e :: ahead ++ .write owner s.cfg.devBase 32 w :: after) ∨
     (x.issued = true ∧
      (∀ a d w u, HostEvent.write a d w u ∈ ahead → a ≠ owner ∨ d ≠ s.cfg.devBase) ∧
      ∃ outcome ∈ [(0x04, 32), (0x20, 32), (0x20, 64), (0x24, 32)],
        s.bus = e :: ahead ++ .read owner (s.cfg.devBase + BitVec.ofNat 64 outcome.1) outcome.2 :: after)) →
    step s = .refused (.interleaved owner intruder)

/-- The other side of R236: while one agent makes every access, nothing is refused, however long it runs. The
sequence is the model's (log entry 8). -/
def Obligations.ASingleAgentIsNeverRefused : Prop :=
  ∀ (s : State) (agent n : Nat) (r : Refusal),
    (∀ a d w u, HostEvent.write a d w u ∈ s.bus → a = agent) →
    (∀ a d w, HostEvent.read a d w ∈ s.bus → a = agent) →
    (∀ x, s.session = some x → x.agent = agent) →
    Sys2Proof.core.run n s ≠ .refused r

/-- R62, R237: a host store is seen by every later read of its address and changes no other; a store in flight waits, and
when it lands the last one to an address is seen there. The state that holds a host's store, the stores in flight and when
they land, that an address is not taken modulo 2^HOST_ADDR_BITS, and that a store to an address of the register block is
host memory are the model's (log entries 4, 12, 14 and 23). -/
def Obligations.HostStoresAreSeen : Prop :=
  (∀ (s : State) (addr : Dword) (b : Byte) (rest : List HostEvent), s.bus = .store addr b :: rest →
    ∃ t, step s = .next t ∧ t = { s with bus := rest, hostMem := t.hostMem } ∧
      t.hostMem.read addr.toNat = some b ∧ ∀ a, a ≠ addr.toNat → t.hostMem.read a = s.hostMem.read a) ∧
  (∀ (s : State) (addr : Dword) (b : Byte) (rest : List HostEvent), s.bus = .racingStore addr b :: rest →
    step s = .next { s with bus := rest, racing := s.racing ++ [(addr.toNat, b)] }) ∧
  ∀ s : State,
    s.landStores = { s with racing := [], hostMem := s.landStores.hostMem } ∧
    (∀ a, (∀ p ∈ s.racing, p.1 ≠ a) → s.landStores.hostMem.read a = s.hostMem.read a) ∧
    (∀ older newer a b, s.racing = older ++ (a, b) :: newer → (∀ p ∈ newer, p.1 ≠ a) →
      s.landStores.hostMem.read a = some b)

/-- R78: a pseudo-instruction run by one agent is its command on the operands it names, and nothing else; it does not
read STATUS or RESULT. The events and the sequence are the model's (log entries 7, 8 and 12). -/
def Obligations.PseudoInstructionsAreTheirCommands : Prop :=
  ∀ (s : State) (p : Pseudo) (agent : Nat) (rest : List HostEvent),
    s.cfg.devBase.toNat % 0x100 = 0 →
    (∀ x, s.session = some x → x.agent = agent) →
    s.bus = p.expand.map (fun st => st.event s.cfg agent) ++ rest →
    Sys2Proof.core.run p.expand.length s =
      mapNext State.landStores
        (exec p.command (p.operands { s with bus := rest, session := some ⟨agent, false, true⟩ }))

/-! ### Reset and invariants -/

/-- R44: the values the spec gives after reset, at the state the machine starts in and after the reset event. (The
engine registers hold no value there; that a reset leaves the parameters and the host's side is log entry 18.) -/
def Obligations.ResetValues : Prop :=
  (State.reset.status = 0 ∧ State.reset.argA = 0 ∧ State.reset.argB = 0 ∧ State.reset.handle = 0 ∧
    State.reset.result = 0 ∧ State.reset.ctxLive = false ∧ State.reset.order = [] ∧
    (∀ h, State.reset.msg? h = none) ∧ State.reset.nextHandle = 1) ∧
  ∀ (s : State) (rest : List HostEvent), s.bus = .reset :: rest → ∃ t, step s = .next t ∧
    t.status = 0 ∧ t.argA = 0 ∧ t.argB = 0 ∧ t.handle = 0 ∧ t.result = 0 ∧ t.ctxLive = false ∧ t.order = [] ∧
    (∀ h, t.msg? h = none) ∧ t.nextHandle = 1 ∧
    t.cfg = s.cfg ∧ t.hostMem = s.hostMem ∧ t.bus = rest ∧ t.observed = s.observed

/-- R9: no step writes the parameters. That they are held in State is the model's choice (log entry 1). -/
def Obligations.ParametersNeverChange : Prop :=
  ∀ s t : State, step s = .next t → t.cfg = s.cfg

/-- The invariant holds after reset. -/
def Obligations.ResetMeetsTheInvariant : Prop := State.reset.Inv

/-- R22, R29 to R32, R41: every step keeps the invariant. Host memory's form and the bound on MAX_RAW_BYTES are the model's
(log entries 4 and 6). -/
def Obligations.EveryStepKeepsTheInvariant : Prop :=
  ∀ s t : State, s.Inv → step s = .next t → t.Inv
end

