-- ==== Sys2Proof/Laws/Engine.lean ====
section
/-! SUPPORT. What the engine's loops write and what they leave (R147 to R150): the schedule words, and the registers each
loop does not touch. -/

namespace Sys2Proof.Machine

/-- A schedule register after one is written. -/
theorem Engine.setW_w (e : Engine) (t k : Nat) (v : Word) (ht : t < 64) :
    (e.setW t v).w k = if k = t then v else e.w k := by
  simp only [Engine.w, Engine.setW]
  by_cases h : k = t
  · subst h; simp [ht]
  · rw [Vector.getElem?_setIfInBounds_ne (by omega), if_neg h]

/-- The words the schedule load writes, and the others (R147). -/
theorem Engine.loadSchedule_w (B : List Byte) (e : Engine) (n k : Nat) (hn : n ≤ 64) :
    (e.loadSchedule B n).w k = if k < n then chunkWord B k else e.w k := by
  induction n with
  | zero => simp [Engine.loadSchedule]
  | succ n ih =>
    rw [Engine.loadSchedule, Engine.setW_w _ _ _ _ (by omega), ih (by omega)]
    by_cases h : k = n
    · subst h; simp
    · have : k < n + 1 ↔ k < n := by omega
      simp [h, this]

/-- Expansion never rewrites a word it or the load has written (R148). -/
theorem Engine.expandSchedule_w_stable (e : Engine) (m n k : Nat) (hmn : m ≤ n) (hn : 16 + n ≤ 64) (hk : k < 16 + m) :
    (e.expandSchedule n).w k = (e.expandSchedule m).w k := by
  induction n with
  | zero => rw [show m = 0 by omega]
  | succ n ih =>
    by_cases h : m = n + 1
    · rw [h]
    · rw [Engine.expandSchedule, Engine.expandWord, Engine.setW_w _ _ _ _ (by omega), if_neg (by omega),
        ih (by omega) (by omega)]

/-- The load writes W and the schedule counter alone. -/
theorem Engine.loadSchedule_frame (B : List Byte) (e : Engine) (n : Nat) :
    (e.loadSchedule B n).H = e.H ∧ (e.loadSchedule B n).work = e.work ∧ (e.loadSchedule B n).T1 = e.T1 ∧
    (e.loadSchedule B n).T2 = e.T2 ∧ (e.loadSchedule B n).c = e.c := by
  induction n with
  | zero => exact ⟨rfl, rfl, rfl, rfl, rfl⟩
  | succ n ih => simpa [Engine.loadSchedule, Engine.setW] using ih

/-- The expansion writes W and the schedule counter alone. -/
theorem Engine.expandSchedule_frame (e : Engine) (n : Nat) :
    (e.expandSchedule n).H = e.H ∧ (e.expandSchedule n).work = e.work ∧ (e.expandSchedule n).T1 = e.T1 ∧
    (e.expandSchedule n).T2 = e.T2 ∧ (e.expandSchedule n).c = e.c := by
  induction n with
  | zero => exact ⟨rfl, rfl, rfl, rfl, rfl⟩
  | succ n ih => simpa [Engine.expandSchedule, Engine.expandWord, Engine.setW] using ih

@[simp] theorem Engine.schedule_H (B : List Byte) (e : Engine) : (e.schedule B).H = e.H := by
  unfold Engine.schedule
  rw [(Engine.expandSchedule_frame _ _).1, (Engine.loadSchedule_frame _ _ _).1]

@[simp] theorem Engine.schedule_c (B : List Byte) (e : Engine) : (e.schedule B).c = e.c := by
  unfold Engine.schedule
  rw [(Engine.expandSchedule_frame _ _).2.2.2.2, (Engine.loadSchedule_frame _ _ _).2.2.2.2]

/-- The rounds leave the running hash, the schedule and the chunk counter. -/
theorem Engine.rounds_frame (e : Engine) (n : Nat) :
    (e.rounds n).H = e.H ∧ (e.rounds n).W = e.W ∧ (e.rounds n).c = e.c := by
  induction n with
  | zero => exact ⟨rfl, rfl, rfl⟩
  | succ n ih => simpa [Engine.rounds, Engine.round] using ih

@[simp] theorem Engine.compress_H (e : Engine) : e.compress.H = e.H := by
  unfold Engine.compress; exact (e.rounds_frame 64).1

@[simp] theorem Engine.compress_W (e : Engine) : e.compress.W = e.W := by
  unfold Engine.compress; exact (e.rounds_frame 64).2.1

@[simp] theorem Engine.compress_c (e : Engine) : e.compress.c = e.c := by
  unfold Engine.compress; exact (e.rounds_frame 64).2.2

end Sys2Proof.Machine
end

