-- ==== Sys2Proof/Laws/Memory.lean ====
section
/-! SUPPORT. Host memory: read after write, and every operation keeps the canonical form. -/

namespace Sys2Proof.Machine

/-- A read after a write: the byte written at that address, the old byte anywhere else, for every list. -/
theorem Memory.read_write (m : Memory) (a k : Nat) (v : Byte) :
    (m.write a v).read k = if k = a then some v else m.read k := by
  induction m with
  | nil => simp [Memory.write, Memory.read]
  | cons p m ih =>
    obtain ⟨b, w⟩ := p
    unfold Memory.write
    by_cases h1 : a < b
    · simp [h1, Memory.read]
    · by_cases h2 : a = b
      · subst h2; by_cases hk : k = a <;> simp [Memory.read, hk]
      · simp only [h1, h2, if_false]
        by_cases hk : k = b
        · have : k ≠ a := fun h => h2 (h ▸ hk ▸ rfl)
          simp [Memory.read, hk]; omega
        · simp [Memory.read, hk, ih]

/-- The canonical form, read off a nonempty list: the rest is canonical and lies above its head. -/
theorem Memory.wf_cons (k : Nat) (b : Byte) (m : Memory) :
    Memory.wf ((k, b) :: m) = true ↔ (∀ p ∈ m, k < p.1) ∧ Memory.wf m = true := by
  induction m generalizing k b with
  | nil => simp [Memory.wf]
  | cons p m ih =>
    obtain ⟨k', b'⟩ := p
    simp only [Memory.wf, Bool.and_eq_true, decide_eq_true_eq, List.mem_cons, forall_eq_or_imp]
    constructor
    · rintro ⟨h, hm⟩
      exact ⟨⟨h, fun p hp => lt_trans h (((ih k' b').1 hm).1 p hp)⟩, hm⟩
    · rintro ⟨⟨h, _⟩, hm⟩
      exact ⟨h, hm⟩

/-- A write lists one address more, or the same ones. -/
theorem Memory.mem_write {m : Memory} {a : Nat} {v : Byte} {p : Host.Cell} (hp : p ∈ m.write a v) :
    p = (a, v) ∨ p ∈ m := by
  induction m with
  | nil => simpa [Memory.write] using hp
  | cons q m ih =>
    obtain ⟨b, w⟩ := q
    unfold Memory.write at hp
    split at hp
    · simpa using hp
    · split at hp
      · rcases List.mem_cons.1 hp with h | h
        · exact .inl h
        · exact .inr (List.mem_cons_of_mem _ h)
      · rcases List.mem_cons.1 hp with h | h
        · exact .inr (h ▸ List.mem_cons_self)
        · exact (ih h).imp id (List.mem_cons_of_mem _)

/-- A write keeps the canonical form. -/
theorem Memory.write_wf (m : Memory) (a : Nat) (v : Byte) (h : m.wf = true) : (m.write a v).wf = true := by
  induction m with
  | nil => rfl
  | cons p m ih =>
    obtain ⟨b, w⟩ := p
    have hb := (Memory.wf_cons b w m).1 h
    unfold Memory.write
    split
    · rename_i hlt
      refine (Memory.wf_cons a v _).2 ⟨fun q hq => ?_, h⟩
      rcases List.mem_cons.1 hq with rfl | hq
      · exact hlt
      · exact lt_trans hlt (hb.1 q hq)
    · split
      · rename_i heq; subst heq; exact (Memory.wf_cons a v m).2 hb
      · rename_i h1 h2
        refine (Memory.wf_cons b w _).2 ⟨fun q hq => ?_, ih hb.2⟩
        rcases Memory.mem_write hq with rfl | hq
        · show b < a; omega
        · exact hb.1 q hq

/-- Several writes keep the canonical form. -/
theorem Memory.writeAll_wf (m : Memory) (stores : List Host.Cell) (h : m.wf = true) :
    (m.writeAll stores).wf = true := by
  unfold Memory.writeAll
  induction stores generalizing m with
  | nil => exact h
  | cons p stores ih => exact ih _ (Memory.write_wf m p.1 p.2 h)

/-- Outside a race, a byte of a buffer is what host memory holds at its address (R55, R56). -/
theorem State.hostByte_unraced (s : State) (addr : Dword) (i : Nat) :
    s.hostByte false addr i = s.hostMem.read ((addr.toNat + i) % 2 ^ s.cfg.hostAddrBits) := by
  simp only [State.hostByte, hostAddr]
  cases Memory.read _ s.hostMem <;> rfl

/-- Whether a byte of a buffer can be read is host memory's alone to say, raced or not (R57). -/
theorem State.hostByte_isSome (s : State) (r : Bool) (addr : Dword) (i : Nat) :
    (s.hostByte r addr i).isSome = (s.hostMem.read ((addr.toNat + i) % 2 ^ s.cfg.hostAddrBits)).isSome := by
  simp only [State.hostByte, hostAddr]
  cases Memory.read _ s.hostMem <;> rfl

/-- A buffer read is as many bytes as were asked for. -/
theorem State.memRead_length (s : State) (r : Bool) (addr : Dword) (n i : Nat) (bs : List Byte)
    (h : s.memRead r addr n i = .ok bs) : bs.length = n := by
  induction n generalizing i bs with
  | zero => simp [State.memRead] at h; simp [← h]
  | succ n ih =>
    unfold State.memRead at h
    split at h
    · cases h
    · split at h
      · cases h
      · rename_i hb _ bs' hr
        cases h
        simp [ih _ _ hr]

/-- A buffer read gives, at each place, the byte of that address. -/
theorem State.memRead_getElem? (s : State) (r : Bool) (addr : Dword) (n i : Nat) (bs : List Byte)
    (h : s.memRead r addr n i = .ok bs) (k : Nat) (hk : k < n) : bs[k]? = s.hostByte r addr (i + k) := by
  induction n generalizing i bs k with
  | zero => omega
  | succ n ih =>
    unfold State.memRead at h
    split at h
    · cases h
    · split at h
      · cases h
      · rename_i b hb _ bs' hr
        cases h
        cases k with
        | zero => simp [hb]
        | succ k => simpa [Nat.add_assoc, Nat.add_comm 1] using ih _ _ hr k (by omega)

/-- A buffer all of whose addresses are admitted is read. -/
theorem State.memRead_of_hostByte (s : State) (r : Bool) (addr : Dword) (n i : Nat) (f : Nat → Byte)
    (h : ∀ k < n, s.hostByte r addr (i + k) = some (f k)) :
    s.memRead r addr n i = .ok ((List.range n).map f) := by
  induction n generalizing i f with
  | zero => rfl
  | succ n ih =>
    have h0 := h 0 (by omega)
    have hs := ih (i + 1) (fun k => f (k + 1)) fun k hk => by
      have := h (k + 1) (by omega)
      rwa [show i + 1 + k = i + (k + 1) by omega]
    unfold State.memRead
    rw [Nat.add_zero] at h0
    simp [h0, hs, List.range_succ_eq_map, Function.comp_def]

/-- The scan of host memory asks for the bytes before the first 0x00 or refused address, and for that one; for all `n` where
there is none (R107). -/
theorem State.textReads_eq (s : State) (addr : Dword) (n i k : Nat) (hk : k ≤ n)
    (h : ∀ j < k, ∃ b, s.hostMem.read (hostAddr s.cfg addr (i + j)) = some b ∧ b ≠ 0) :
    s.textReads addr n i = k + s.textReads addr (n - k) (i + k) := by
  induction k generalizing n i with
  | zero => simp
  | succ k ih =>
    obtain ⟨m, rfl⟩ : ∃ m, n = m + 1 := ⟨n - 1, by omega⟩
    obtain ⟨b, hb, h0⟩ := h 0 (by omega)
    have hs := ih m (i + 1) (by omega) fun j hj => by
      have := h (j + 1) (by omega)
      rwa [show i + 1 + j = i + (j + 1) by omega]
    rw [State.textReads]
    rw [Nat.add_zero] at hb
    simp only [hb, h0, if_false, hs]
    rw [show m + 1 - (k + 1) = m - k by omega, show i + (k + 1) = i + 1 + k by omega]
    omega

/-- A scan that may read a byte asks for at least one. -/
theorem State.textReads_pos (s : State) (addr : Dword) (n i : Nat) : 1 ≤ s.textReads addr (n + 1) i := by
  rw [State.textReads]
  split
  · exact le_refl 1
  · split <;> omega

/-- A scan asks for no more bytes than it may read. -/
theorem State.textReads_le (s : State) (addr : Dword) (n i : Nat) : s.textReads addr n i ≤ n := by
  induction n generalizing i with
  | zero => exact le_refl 0
  | succ n ih =>
    have := ih (i + 1)
    rw [State.textReads]
    split
    · omega
    · split <;> omega

/-- A scan that ends at byte `k`, at a 0x00 or a refused address, asks for the bytes up to it and for it. -/
theorem State.textReads_of_end (s : State) (addr : Dword) (n k : Nat) (hk : k < n)
    (h : ∀ j < k, ∃ b, s.hostMem.read (hostAddr s.cfg addr j) = some b ∧ b ≠ 0)
    (hend : s.hostMem.read (hostAddr s.cfg addr k) = none ∨ s.hostMem.read (hostAddr s.cfg addr k) = some 0) :
    s.textReads addr n 0 = k + 1 := by
  rw [s.textReads_eq addr n 0 k (by omega) (by simpa using h), Nat.zero_add]
  obtain ⟨m, hm⟩ : ∃ m, n - k = m + 1 := ⟨n - k - 1, by omega⟩
  rw [hm, State.textReads]
  rcases hend with hend | hend <;> simp [hend]

/-- The scan of a text passes its nonzero bytes and goes on behind them (R107). -/
theorem State.scanText_append (s : State) (r : Bool) (addr : Dword) (n i : Nat) (bs : List Byte) (hn : bs.length ≤ n)
    (h : ∀ j, ∀ hj : j < bs.length, s.hostByte r addr (i + j) = some bs[j]) (h0 : ∀ b ∈ bs, b ≠ 0) :
    s.scanText r addr n i = bs.foldr Scan.push (s.scanText r addr (n - bs.length) (i + bs.length)) := by
  induction bs generalizing n i with
  | nil => simp
  | cons b bs ih =>
    obtain ⟨m, rfl⟩ : ∃ m, n = m + 1 := ⟨n - 1, by simp only [List.length_cons] at hn; omega⟩
    have hb : s.hostByte r addr i = some b := h 0 (by simp)
    have hs := ih m (i + 1) (by simpa using hn) (fun j hj => by
      have := h (j + 1) (by simpa using hj)
      rwa [show i + 1 + j = i + (j + 1) by omega]) fun c hc => h0 c (List.mem_cons_of_mem _ hc)
    rw [State.scanText]
    simp only [hb, h0 b List.mem_cons_self, if_false, hs, List.foldr_cons, List.length_cons]
    rw [show m + 1 - (bs.length + 1) = m - bs.length by omega, show i + (bs.length + 1) = i + 1 + bs.length by omega]

/-- Bytes before a scanned text, before an end that is none, and before a refused address. -/
@[simp] theorem Scan.foldr_push_text (bs cs : List Byte) : bs.foldr Scan.push (.text cs) = .text (bs ++ cs) := by
  induction bs with
  | nil => rfl
  | cons b bs ih => simp [ih, Scan.push]

@[simp] theorem Scan.foldr_push_unterminated (bs : List Byte) : bs.foldr Scan.push .unterminated = .unterminated := by
  induction bs with
  | nil => rfl
  | cons b bs ih => simp [ih, Scan.push]

@[simp] theorem Scan.foldr_push_refused (bs : List Byte) (a : Nat) : bs.foldr Scan.push (.refused a) = .refused a := by
  induction bs with
  | nil => rfl
  | cons b bs ih => simp [ih, Scan.push]

/-- More bytes can only be raced by more stores. -/
theorem State.raced_mono (s : State) (addr : Dword) (m n : Nat) (hmn : m ≤ n) (h : s.raced addr m = true) :
    s.raced addr n = true := by
  simp only [State.raced, List.any_eq_true, Bool.and_eq_true, decide_eq_true_eq] at h ⊢
  obtain ⟨p, hp, h1, h2⟩ := h
  exact ⟨p, hp, h1, by omega⟩

/-- A scanned text is shorter than the number of bytes the scan may read. -/
theorem State.scanText_length (s : State) (r : Bool) (addr : Dword) (n i : Nat) (bs : List Byte)
    (h : s.scanText r addr n i = .text bs) : bs.length < n := by
  induction n generalizing i bs with
  | zero => cases h
  | succ n ih =>
    unfold State.scanText at h
    split at h
    · cases h
    · split at h
      · cases h; simp
      · cases hs : s.scanText r addr n (i + 1) with
        | text bs' =>
          rw [hs] at h
          cases h
          simpa using ih _ _ hs
        | unterminated => rw [hs] at h; cases h
        | refused a => rw [hs] at h; cases h

/-- Landed stores read back: the last store to an address, or what host memory held (R62, R237). -/
theorem Memory.read_writeAll (m : Memory) (stores : List Host.Cell) (k : Nat) :
    (m.writeAll stores).read k = ((stores.reverse.find? fun p => p.1 == k).map Prod.snd).or (m.read k) := by
  unfold Memory.writeAll
  induction stores generalizing m with
  | nil => simp
  | cons p stores ih =>
    rw [List.foldl_cons, ih, Memory.read_write, List.reverse_cons, List.find?_append]
    cases hf : stores.reverse.find? fun p => p.1 == k with
    | some q => simp
    | none =>
      by_cases hk : k = p.1
      · simp [hk]
      · simp [hk, Ne.symm hk]

end Sys2Proof.Machine
end

