-- ==== Sys2Proof/Laws/State.lean ====
section
/-! SUPPORT. One lemma per field per update of the state, so that no later proof unfolds a record update. -/

namespace Sys2Proof.Machine

@[simp] theorem State.complete_cfg (s : State) (code : ErrCode) (r : Dword) : (s.complete code r).cfg = s.cfg := rfl
@[simp] theorem State.complete_status (s : State) (code : ErrCode) (r : Dword) : (s.complete code r).status = statusWord code s.ctxLive := rfl
@[simp] theorem State.complete_argA (s : State) (code : ErrCode) (r : Dword) : (s.complete code r).argA = s.argA := rfl
@[simp] theorem State.complete_argB (s : State) (code : ErrCode) (r : Dword) : (s.complete code r).argB = s.argB := rfl
@[simp] theorem State.complete_handle (s : State) (code : ErrCode) (r : Dword) : (s.complete code r).handle = s.handle := rfl
@[simp] theorem State.complete_result (s : State) (code : ErrCode) (r : Dword) : (s.complete code r).result = r := rfl
@[simp] theorem State.complete_ctxLive (s : State) (code : ErrCode) (r : Dword) : (s.complete code r).ctxLive = s.ctxLive := rfl
@[simp] theorem State.complete_messages (s : State) (code : ErrCode) (r : Dword) : (s.complete code r).messages = s.messages := rfl
@[simp] theorem State.complete_nextHandle (s : State) (code : ErrCode) (r : Dword) : (s.complete code r).nextHandle = s.nextHandle := rfl
@[simp] theorem State.complete_engine (s : State) (code : ErrCode) (r : Dword) : (s.complete code r).engine = s.engine := rfl
@[simp] theorem State.complete_hostMem (s : State) (code : ErrCode) (r : Dword) : (s.complete code r).hostMem = s.hostMem := rfl
@[simp] theorem State.complete_racing (s : State) (code : ErrCode) (r : Dword) : (s.complete code r).racing = s.racing := rfl
@[simp] theorem State.complete_bus (s : State) (code : ErrCode) (r : Dword) : (s.complete code r).bus = s.bus := rfl
@[simp] theorem State.complete_session (s : State) (code : ErrCode) (r : Dword) : (s.complete code r).session = s.session := rfl
@[simp] theorem State.complete_observed (s : State) (code : ErrCode) (r : Dword) : (s.complete code r).observed = s.observed := rfl
@[simp] theorem State.complete_fresh (s : State) (code : ErrCode) (r : Dword) : (s.complete code r).fresh = s.fresh := rfl

@[simp] theorem State.setMsg_cfg (s : State) (h : Handle) (m : Message) : (s.setMsg h m).cfg = s.cfg := rfl
@[simp] theorem State.setMsg_status (s : State) (h : Handle) (m : Message) : (s.setMsg h m).status = s.status := rfl
@[simp] theorem State.setMsg_argA (s : State) (h : Handle) (m : Message) : (s.setMsg h m).argA = s.argA := rfl
@[simp] theorem State.setMsg_argB (s : State) (h : Handle) (m : Message) : (s.setMsg h m).argB = s.argB := rfl
@[simp] theorem State.setMsg_handle (s : State) (h : Handle) (m : Message) : (s.setMsg h m).handle = s.handle := rfl
@[simp] theorem State.setMsg_result (s : State) (h : Handle) (m : Message) : (s.setMsg h m).result = s.result := rfl
@[simp] theorem State.setMsg_ctxLive (s : State) (h : Handle) (m : Message) : (s.setMsg h m).ctxLive = s.ctxLive := rfl
@[simp] theorem State.setMsg_messages (s : State) (h : Handle) (m : Message) : (s.setMsg h m).messages = s.messages.map fun p => if p.1 = h then (h, m) else p := rfl
@[simp] theorem State.setMsg_nextHandle (s : State) (h : Handle) (m : Message) : (s.setMsg h m).nextHandle = s.nextHandle := rfl
@[simp] theorem State.setMsg_engine (s : State) (h : Handle) (m : Message) : (s.setMsg h m).engine = s.engine := rfl
@[simp] theorem State.setMsg_hostMem (s : State) (h : Handle) (m : Message) : (s.setMsg h m).hostMem = s.hostMem := rfl
@[simp] theorem State.setMsg_racing (s : State) (h : Handle) (m : Message) : (s.setMsg h m).racing = s.racing := rfl
@[simp] theorem State.setMsg_bus (s : State) (h : Handle) (m : Message) : (s.setMsg h m).bus = s.bus := rfl
@[simp] theorem State.setMsg_session (s : State) (h : Handle) (m : Message) : (s.setMsg h m).session = s.session := rfl
@[simp] theorem State.setMsg_observed (s : State) (h : Handle) (m : Message) : (s.setMsg h m).observed = s.observed := rfl
@[simp] theorem State.setMsg_fresh (s : State) (h : Handle) (m : Message) : (s.setMsg h m).fresh = s.fresh := rfl

@[simp] theorem State.dropMsg_cfg (s : State) (h : Handle) : (s.dropMsg h).cfg = s.cfg := rfl
@[simp] theorem State.dropMsg_status (s : State) (h : Handle) : (s.dropMsg h).status = s.status := rfl
@[simp] theorem State.dropMsg_argA (s : State) (h : Handle) : (s.dropMsg h).argA = s.argA := rfl
@[simp] theorem State.dropMsg_argB (s : State) (h : Handle) : (s.dropMsg h).argB = s.argB := rfl
@[simp] theorem State.dropMsg_handle (s : State) (h : Handle) : (s.dropMsg h).handle = s.handle := rfl
@[simp] theorem State.dropMsg_result (s : State) (h : Handle) : (s.dropMsg h).result = s.result := rfl
@[simp] theorem State.dropMsg_ctxLive (s : State) (h : Handle) : (s.dropMsg h).ctxLive = s.ctxLive := rfl
@[simp] theorem State.dropMsg_messages (s : State) (h : Handle) : (s.dropMsg h).messages = s.messages.filter fun p => p.1 ≠ h := rfl
@[simp] theorem State.dropMsg_nextHandle (s : State) (h : Handle) : (s.dropMsg h).nextHandle = s.nextHandle := rfl
@[simp] theorem State.dropMsg_engine (s : State) (h : Handle) : (s.dropMsg h).engine = s.engine := rfl
@[simp] theorem State.dropMsg_hostMem (s : State) (h : Handle) : (s.dropMsg h).hostMem = s.hostMem := rfl
@[simp] theorem State.dropMsg_racing (s : State) (h : Handle) : (s.dropMsg h).racing = s.racing := rfl
@[simp] theorem State.dropMsg_bus (s : State) (h : Handle) : (s.dropMsg h).bus = s.bus := rfl
@[simp] theorem State.dropMsg_session (s : State) (h : Handle) : (s.dropMsg h).session = s.session := rfl
@[simp] theorem State.dropMsg_observed (s : State) (h : Handle) : (s.dropMsg h).observed = s.observed := rfl
@[simp] theorem State.dropMsg_fresh (s : State) (h : Handle) : (s.dropMsg h).fresh = s.fresh := rfl

@[simp] theorem State.register_cfg (s : State) (raw : List Byte) (L : Dword) : (s.register raw L).cfg = s.cfg := rfl
@[simp] theorem State.register_status (s : State) (raw : List Byte) (L : Dword) : (s.register raw L).status = s.status := rfl
@[simp] theorem State.register_argA (s : State) (raw : List Byte) (L : Dword) : (s.register raw L).argA = s.argA := rfl
@[simp] theorem State.register_argB (s : State) (raw : List Byte) (L : Dword) : (s.register raw L).argB = s.argB := rfl
@[simp] theorem State.register_handle (s : State) (raw : List Byte) (L : Dword) : (s.register raw L).handle = s.handle := rfl
@[simp] theorem State.register_result (s : State) (raw : List Byte) (L : Dword) : (s.register raw L).result = s.result := rfl
@[simp] theorem State.register_ctxLive (s : State) (raw : List Byte) (L : Dword) : (s.register raw L).ctxLive = s.ctxLive := rfl
@[simp] theorem State.register_messages (s : State) (raw : List Byte) (L : Dword) : (s.register raw L).messages = s.messages ++ [(s.newHandle, ⟨L, raw, .raw⟩)] := rfl
@[simp] theorem State.register_nextHandle (s : State) (raw : List Byte) (L : Dword) : (s.register raw L).nextHandle = s.nextHandle + 1 := rfl
@[simp] theorem State.register_engine (s : State) (raw : List Byte) (L : Dword) : (s.register raw L).engine = s.engine := rfl
@[simp] theorem State.register_hostMem (s : State) (raw : List Byte) (L : Dword) : (s.register raw L).hostMem = s.hostMem := rfl
@[simp] theorem State.register_racing (s : State) (raw : List Byte) (L : Dword) : (s.register raw L).racing = s.racing := rfl
@[simp] theorem State.register_bus (s : State) (raw : List Byte) (L : Dword) : (s.register raw L).bus = s.bus := rfl
@[simp] theorem State.register_session (s : State) (raw : List Byte) (L : Dword) : (s.register raw L).session = s.session := rfl
@[simp] theorem State.register_observed (s : State) (raw : List Byte) (L : Dword) : (s.register raw L).observed = s.observed := rfl
@[simp] theorem State.register_fresh (s : State) (raw : List Byte) (L : Dword) : (s.register raw L).fresh = s.fresh := rfl

@[simp] theorem State.landStores_cfg (s : State) : (s.landStores).cfg = s.cfg := rfl
@[simp] theorem State.landStores_status (s : State) : (s.landStores).status = s.status := rfl
@[simp] theorem State.landStores_argA (s : State) : (s.landStores).argA = s.argA := rfl
@[simp] theorem State.landStores_argB (s : State) : (s.landStores).argB = s.argB := rfl
@[simp] theorem State.landStores_handle (s : State) : (s.landStores).handle = s.handle := rfl
@[simp] theorem State.landStores_result (s : State) : (s.landStores).result = s.result := rfl
@[simp] theorem State.landStores_ctxLive (s : State) : (s.landStores).ctxLive = s.ctxLive := rfl
@[simp] theorem State.landStores_messages (s : State) : (s.landStores).messages = s.messages := rfl
@[simp] theorem State.landStores_nextHandle (s : State) : (s.landStores).nextHandle = s.nextHandle := rfl
@[simp] theorem State.landStores_engine (s : State) : (s.landStores).engine = s.engine := rfl
@[simp] theorem State.landStores_hostMem (s : State) : (s.landStores).hostMem = s.hostMem.writeAll s.racing := rfl
@[simp] theorem State.landStores_racing (s : State) : (s.landStores).racing = [] := rfl
@[simp] theorem State.landStores_bus (s : State) : (s.landStores).bus = s.bus := rfl
@[simp] theorem State.landStores_session (s : State) : (s.landStores).session = s.session := rfl
@[simp] theorem State.landStores_observed (s : State) : (s.landStores).observed = s.observed := rfl
@[simp] theorem State.landStores_fresh (s : State) : (s.landStores).fresh = s.fresh := rfl

@[simp] theorem State.resetBlock_cfg (s : State) : (s.resetBlock).cfg = s.cfg := rfl
@[simp] theorem State.resetBlock_status (s : State) : (s.resetBlock).status = 0 := rfl
@[simp] theorem State.resetBlock_argA (s : State) : (s.resetBlock).argA = 0 := rfl
@[simp] theorem State.resetBlock_argB (s : State) : (s.resetBlock).argB = 0 := rfl
@[simp] theorem State.resetBlock_handle (s : State) : (s.resetBlock).handle = 0 := rfl
@[simp] theorem State.resetBlock_result (s : State) : (s.resetBlock).result = 0 := rfl
@[simp] theorem State.resetBlock_ctxLive (s : State) : (s.resetBlock).ctxLive = false := rfl
@[simp] theorem State.resetBlock_messages (s : State) : (s.resetBlock).messages = [] := rfl
@[simp] theorem State.resetBlock_nextHandle (s : State) : (s.resetBlock).nextHandle = 1 := rfl
@[simp] theorem State.resetBlock_engine (s : State) : (s.resetBlock).engine = Engine.atReset := rfl
@[simp] theorem State.resetBlock_hostMem (s : State) : (s.resetBlock).hostMem = s.hostMem := rfl
@[simp] theorem State.resetBlock_racing (s : State) : (s.resetBlock).racing = s.racing := rfl
@[simp] theorem State.resetBlock_bus (s : State) : (s.resetBlock).bus = s.bus := rfl
@[simp] theorem State.resetBlock_session (s : State) : (s.resetBlock).session = none := rfl
@[simp] theorem State.resetBlock_observed (s : State) : (s.resetBlock).observed = s.observed := rfl
@[simp] theorem State.resetBlock_fresh (s : State) : (s.resetBlock).fresh = s.fresh := rfl

@[simp] theorem State.spendFree_cfg (s : State) (r : Bool) (n : Nat) : (s.spendFree r n).cfg = s.cfg := by
  unfold State.spendFree; split <;> rfl
@[simp] theorem State.spendFree_status (s : State) (r : Bool) (n : Nat) : (s.spendFree r n).status = s.status := by
  unfold State.spendFree; split <;> rfl
@[simp] theorem State.spendFree_argA (s : State) (r : Bool) (n : Nat) : (s.spendFree r n).argA = s.argA := by
  unfold State.spendFree; split <;> rfl
@[simp] theorem State.spendFree_argB (s : State) (r : Bool) (n : Nat) : (s.spendFree r n).argB = s.argB := by
  unfold State.spendFree; split <;> rfl
@[simp] theorem State.spendFree_handle (s : State) (r : Bool) (n : Nat) : (s.spendFree r n).handle = s.handle := by
  unfold State.spendFree; split <;> rfl
@[simp] theorem State.spendFree_result (s : State) (r : Bool) (n : Nat) : (s.spendFree r n).result = s.result := by
  unfold State.spendFree; split <;> rfl
@[simp] theorem State.spendFree_ctxLive (s : State) (r : Bool) (n : Nat) : (s.spendFree r n).ctxLive = s.ctxLive := by
  unfold State.spendFree; split <;> rfl
@[simp] theorem State.spendFree_messages (s : State) (r : Bool) (n : Nat) : (s.spendFree r n).messages = s.messages := by
  unfold State.spendFree; split <;> rfl
@[simp] theorem State.spendFree_nextHandle (s : State) (r : Bool) (n : Nat) : (s.spendFree r n).nextHandle = s.nextHandle := by
  unfold State.spendFree; split <;> rfl
@[simp] theorem State.spendFree_engine (s : State) (r : Bool) (n : Nat) : (s.spendFree r n).engine = s.engine := by
  unfold State.spendFree; split <;> rfl
@[simp] theorem State.spendFree_hostMem (s : State) (r : Bool) (n : Nat) : (s.spendFree r n).hostMem = s.hostMem := by
  unfold State.spendFree; split <;> rfl
@[simp] theorem State.spendFree_racing (s : State) (r : Bool) (n : Nat) : (s.spendFree r n).racing = s.racing := by
  unfold State.spendFree; split <;> rfl
@[simp] theorem State.spendFree_bus (s : State) (r : Bool) (n : Nat) : (s.spendFree r n).bus = s.bus := by
  unfold State.spendFree; split <;> rfl
@[simp] theorem State.spendFree_session (s : State) (r : Bool) (n : Nat) : (s.spendFree r n).session = s.session := by
  unfold State.spendFree; split <;> rfl
@[simp] theorem State.spendFree_observed (s : State) (r : Bool) (n : Nat) : (s.spendFree r n).observed = s.observed := by
  unfold State.spendFree; split <;> rfl

@[simp] theorem State.spendFree_unraced (s : State) (n : Nat) : s.spendFree false n = s := rfl

@[simp] theorem State.spendFree_raced (s : State) (n : Nat) :
    s.spendFree true n = { s with fresh := s.fresh + n } := rfl

/-! A register write reaches ARG_A, ARG_B and HANDLE alone. -/

@[simp] theorem State.writeReg_cfg (s : State) (r : Reg) (p : Part) (v : Dword) :
    (s.writeReg r p v).cfg = s.cfg := by cases r <;> rfl
@[simp] theorem State.writeReg_status (s : State) (r : Reg) (p : Part) (v : Dword) :
    (s.writeReg r p v).status = s.status := by cases r <;> rfl
@[simp] theorem State.writeReg_result (s : State) (r : Reg) (p : Part) (v : Dword) :
    (s.writeReg r p v).result = s.result := by cases r <;> rfl
@[simp] theorem State.writeReg_ctxLive (s : State) (r : Reg) (p : Part) (v : Dword) :
    (s.writeReg r p v).ctxLive = s.ctxLive := by cases r <;> rfl
@[simp] theorem State.writeReg_messages (s : State) (r : Reg) (p : Part) (v : Dword) :
    (s.writeReg r p v).messages = s.messages := by cases r <;> rfl
@[simp] theorem State.writeReg_nextHandle (s : State) (r : Reg) (p : Part) (v : Dword) :
    (s.writeReg r p v).nextHandle = s.nextHandle := by cases r <;> rfl
@[simp] theorem State.writeReg_engine (s : State) (r : Reg) (p : Part) (v : Dword) :
    (s.writeReg r p v).engine = s.engine := by cases r <;> rfl
@[simp] theorem State.writeReg_hostMem (s : State) (r : Reg) (p : Part) (v : Dword) :
    (s.writeReg r p v).hostMem = s.hostMem := by cases r <;> rfl
@[simp] theorem State.writeReg_racing (s : State) (r : Reg) (p : Part) (v : Dword) :
    (s.writeReg r p v).racing = s.racing := by cases r <;> rfl
@[simp] theorem State.writeReg_bus (s : State) (r : Reg) (p : Part) (v : Dword) :
    (s.writeReg r p v).bus = s.bus := by cases r <;> rfl
@[simp] theorem State.writeReg_session (s : State) (r : Reg) (p : Part) (v : Dword) :
    (s.writeReg r p v).session = s.session := by cases r <;> rfl
@[simp] theorem State.writeReg_observed (s : State) (r : Reg) (p : Part) (v : Dword) :
    (s.writeReg r p v).observed = s.observed := by cases r <;> rfl
@[simp] theorem State.writeReg_fresh (s : State) (r : Reg) (p : Part) (v : Dword) :
    (s.writeReg r p v).fresh = s.fresh := by cases r <;> rfl

/-! The views `order` and `msg[h]` of the updates. -/

@[simp] theorem State.setMsg_order (s : State) (h : Handle) (m : Message) : (s.setMsg h m).order = s.order := by
  unfold State.order
  rw [State.setMsg_messages, List.map_map]
  refine List.map_congr_left fun p _ => ?_
  by_cases hp : p.1 = h <;> simp [hp]

@[simp] theorem State.dropMsg_order (s : State) (h : Handle) :
    (s.dropMsg h).order = s.order.filter fun k => k ≠ h := by
  simp [State.order, List.filter_map, Function.comp_def]

@[simp] theorem State.register_order (s : State) (raw : List Byte) (L : Dword) :
    (s.register raw L).order = s.order ++ [s.newHandle] := by
  simp [State.order]

/-- Looking a handle up in a nonempty collection. -/
theorem lookup_cons_handle (k a : Handle) (x : Message) (l : List (Handle × Message)) :
    ((a, x) :: l).lookup k = if k = a then some x else l.lookup k := by
  rw [List.lookup_cons]
  by_cases h : k = a
  · simp [h]
  · have : (k == a) = false := by simpa using h
    simp [h, this]

/-- The record of a handle after the record of another, or of itself, is replaced. -/
theorem lookup_replace (l : List (Handle × Message)) (h k : Handle) (m : Message) :
    (l.map fun p => if p.1 = h then (h, m) else p).lookup k =
      if k = h then (l.lookup k).map fun _ => m else l.lookup k := by
  induction l with
  | nil => simp
  | cons p l ih =>
    obtain ⟨a, x⟩ := p
    rw [List.map_cons, lookup_cons_handle k a x l]
    by_cases ha : a = h
    · subst ha
      rw [if_pos rfl, lookup_cons_handle, ih]
      by_cases hk : k = a <;> simp [hk]
    · rw [if_neg ha, lookup_cons_handle, ih]
      by_cases hk : k = a
      · simp [hk, ha]
      · simp [hk]

/-- The record of a handle after another handle, or itself, is dropped. -/
theorem lookup_drop (l : List (Handle × Message)) (h k : Handle) :
    (l.filter fun p => p.1 ≠ h).lookup k = if k = h then none else l.lookup k := by
  induction l with
  | nil => simp
  | cons p l ih =>
    obtain ⟨a, x⟩ := p
    rw [List.filter_cons, lookup_cons_handle k a x l]
    by_cases ha : a = h
    · subst ha
      simp only [ne_eq, not_true_eq_false, decide_false, Bool.false_eq_true, if_false]
      rw [ih]
      by_cases hk : k = a <;> simp [hk]
    · simp only [ne_eq, ha, not_false_eq_true, decide_true, if_true]
      rw [lookup_cons_handle, ih]
      by_cases hk : k = a
      · simp [hk, ha]
      · simp [hk]

@[simp] theorem State.setMsg_msg? (s : State) (h k : Handle) (m : Message) :
    (s.setMsg h m).msg? k = if k = h then (s.msg? k).map fun _ => m else s.msg? k :=
  lookup_replace s.messages h k m

@[simp] theorem State.dropMsg_msg? (s : State) (h k : Handle) :
    (s.dropMsg h).msg? k = if k = h then none else s.msg? k :=
  lookup_drop s.messages h k

@[simp] theorem State.complete_order (s : State) (code : ErrCode) (r : Dword) : (s.complete code r).order = s.order := rfl

@[simp] theorem State.complete_msg? (s : State) (code : ErrCode) (r : Dword) (h : Handle) :
    (s.complete code r).msg? h = s.msg? h := rfl

@[simp] theorem State.landStores_order (s : State) : s.landStores.order = s.order := rfl

@[simp] theorem State.landStores_msg? (s : State) (h : Handle) : s.landStores.msg? h = s.msg? h := rfl

@[simp] theorem State.spendFree_order (s : State) (r : Bool) (n : Nat) : (s.spendFree r n).order = s.order := by
  simp [State.order]

@[simp] theorem State.spendFree_msg? (s : State) (r : Bool) (n : Nat) (h : Handle) :
    (s.spendFree r n).msg? h = s.msg? h := by
  simp [State.msg?]

@[simp] theorem State.writeReg_order (s : State) (r : Reg) (p : Part) (v : Dword) :
    (s.writeReg r p v).order = s.order := by
  simp [State.order]

@[simp] theorem State.writeReg_msg? (s : State) (r : Reg) (p : Part) (v : Dword) (h : Handle) :
    (s.writeReg r p v).msg? h = s.msg? h := by
  simp [State.msg?]

/-- Registering leaves the record of every handle that has one, and gives the new handle its record otherwise. -/
theorem State.register_msg? (s : State) (raw : List Byte) (L : Dword) (h : Handle) :
    (s.register raw L).msg? h =
      (s.msg? h).or (if h = s.newHandle then some ⟨L, raw, .raw⟩ else none) := by
  unfold State.msg?
  rw [State.register_messages]
  induction s.messages with
  | nil => rw [List.nil_append, lookup_cons_handle]; simp
  | cons p l ih =>
    obtain ⟨a, x⟩ := p
    rw [List.cons_append, lookup_cons_handle, lookup_cons_handle, ih]
    by_cases ha : h = a <;> simp [ha]

/-- A handle has a record exactly when it is in `order` (R31). -/
theorem State.msg?_isSome_iff (s : State) (h : Handle) : (s.msg? h).isSome = true ↔ h ∈ s.order := by
  unfold State.msg? State.order
  induction s.messages with
  | nil => simp
  | cons p l ih =>
    obtain ⟨a, x⟩ := p
    rw [lookup_cons_handle, List.map_cons, List.mem_cons, ← ih]
    by_cases hk : h = a <;> simp [hk]

theorem State.msg?_eq_none_iff (s : State) (h : Handle) : s.msg? h = none ↔ h ∉ s.order := by
  rw [← s.msg?_isSome_iff h]; cases s.msg? h <;> simp

/-- The record of a live handle stands in the collection. -/
theorem State.mem_of_msg? (s : State) (h : Handle) (m : Message) (hm : s.msg? h = some m) : (h, m) ∈ s.messages := by
  unfold State.msg? at hm
  induction hl : s.messages generalizing s with
  | nil => simp [hl] at hm
  | cons p l ih =>
    obtain ⟨a, x⟩ := p
    rw [hl, lookup_cons_handle] at hm
    by_cases hk : h = a
    · subst hk
      rw [if_pos rfl] at hm
      injection hm with hm
      exact hm ▸ List.mem_cons_self
    · rw [if_neg hk] at hm
      exact List.mem_cons_of_mem _ (ih { s with messages := l } hm rfl)

end Sys2Proof.Machine
end

