-- ==== Sys2Proof/Laws/Ops.lean ====
section
/-! SUPPORT. What each shared operation can do, once: a later proof cites these and unfolds none of them. -/

namespace Sys2Proof.Machine

@[simp] theorem mapNext_next (f : State → State) (s : State) : mapNext f (.next s) = .next (f s) := rfl

/-- `mapNext` answers a next state exactly from one. -/
theorem mapNext_eq_next {f : State → State} {r : Result} {t : State} :
    mapNext f r = .next t ↔ ∃ u, r = .next u ∧ f u = t := by
  cases r <;> simp [mapNext]

/-- `complete(OK, r)` answers one next state. -/
theorem succeed_next {r : Dword} {s t : State} : succeed r s = .next t ↔ s.complete .ok r = t := by simp [succeed]

/-- Raising answers one next state. -/
theorem raise_next {e : ErrCode} {s t : State} : raise e s = .next t ↔ s.complete e 0 = t := by simp [raise]

@[simp] theorem withContext_live (s : State) (k : Result) (h : s.ctxLive = true) : withContext s k = k := by
  simp [withContext, h]

@[simp] theorem withContext_dead (s : State) (k : Result) (h : s.ctxLive = false) :
    withContext s k = raise .noContext s := by
  simp [withContext, h]

/-- What the NoContext check lets through. -/
theorem withContext_next {s t : State} {k : Result} (h : withContext s k = .next t) :
    (s.ctxLive = true ∧ k = .next t) ∨ (s.ctxLive = false ∧ t = s.complete .noContext 0) := by
  cases hl : s.ctxLive
  · rw [withContext_dead s k hl, raise_next] at h; exact .inr ⟨rfl, h.symm⟩
  · rw [withContext_live s k hl] at h; exact .inl ⟨rfl, h⟩

theorem withMessage_some {s : State} {m : Message} (k : Message → Result) (h : s.msg? s.handle = some m) :
    withMessage s k = k m := by
  simp [withMessage, State.opHandle, h]

theorem withMessage_none {s : State} (k : Message → Result) (h : s.msg? s.handle = none) :
    withMessage s k = raise .notFound s := by
  simp [withMessage, State.opHandle, h]

/-- What the lookup lets through. -/
theorem withMessage_next {s t : State} {k : Message → Result} (h : withMessage s k = .next t) :
    (∃ m, s.msg? s.handle = some m ∧ k m = .next t) ∨ (s.msg? s.handle = none ∧ t = s.complete .notFound 0) := by
  cases hm : s.msg? s.handle with
  | none => rw [withMessage_none k hm, raise_next] at h; exact .inr ⟨rfl, h.symm⟩
  | some m => rw [withMessage_some k hm] at h; exact .inl ⟨m, rfl, h⟩

/-- A create command that gets as far as registering. -/
theorem createMessage_next {raw : List Byte} {L : Dword} {s t : State} :
    createMessage raw L s = .next t ↔ (s.register raw L).complete .ok (s.newHandle.setWidth 64) = t := by
  simp [createMessage, succeed]

/-- `zext_64` of a natural that 64 bits hold (R11). -/
@[simp] theorem zext64_of_lt (n : Nat) (h : n < 2 ^ 64) : zext64 n = BitVec.ofNat 64 n := if_pos h

/-- Releasing message after message leaves none (R106). -/
@[simp] theorem releaseAll_eq_nil (l : List (Handle × Message)) : releaseAll l = [] := by
  induction l with
  | nil => rfl
  | cons _ _ ih => exact ih

/-- Each STATUS word is its code and CTX_LIVE, the rest zero (R22). -/
theorem statusWord_fields (c : ErrCode) (live : Bool) :
    (statusWord c live).extractLsb' 0 4 = c.code ∧ (statusWord c live).extractLsb' 4 4 = 0 ∧
    (statusWord c live).getLsbD 8 = live ∧ (statusWord c live).extractLsb' 9 23 = 0 := by
  cases c <;> cases live <;> decide

/-- STATUS as the numbers of spec/95_test_vectors.md L2-C: `{CTX_LIVE, ERR}`. -/
theorem statusWord_toNat (c : ErrCode) (live : Bool) :
    (statusWord c live).toNat = (if live then 0x100 else 0) + c.code.toNat := by
  cases c <;> cases live <;> decide

/-- `RawStore` has the length of the record's `raw` (R101). -/
theorem rawStore_length (src : List Byte) (L : Nat) (h : (L + 7) / 8 ≤ src.length) :
    (rawStore src L).length = rawBytes L := by
  unfold rawStore rawBytes
  by_cases hL : L = 0
  · simp [hL]
  · rw [if_neg hL]
    split <;> simp only [List.length_set, List.length_take] <;> omega

end Sys2Proof.Machine
end

