-- ==== Sys2Proof/Laws/Exec.lean ====
section
/-! SUPPORT. What each command, the command cycle and the step can answer: one inversion lemma each. -/

namespace Sys2Proof.Machine

/-- CTX_CREATE (R105). -/
theorem execCtxCreate_next {s t : State} (h : execCtxCreate s = .next t) :
    (s.ctxLive = true ∧ t = s.complete .alloc 0) ∨
    (s.ctxLive = false ∧ t = ({ s with ctxLive := true, messages := [] } : State).complete .ok 0) := by
  unfold execCtxCreate at h
  split at h
  · rw [raise_next] at h; exact .inl ⟨by assumption, h.symm⟩
  · rw [succeed_next] at h; exact .inr ⟨by simpa using ‹¬ s.ctxLive = true›, h.symm⟩

/-- CTX_DESTROY (R106). -/
theorem execCtxDestroy_next {s t : State} (h : execCtxDestroy s = .next t) :
    (s.ctxLive = true ∧ t = ({ s with messages := [], ctxLive := false } : State).complete .ok 0) ∨
    (s.ctxLive = false ∧ t = s.complete .noContext 0) := by
  rcases withContext_next h with ⟨hl, h⟩ | h
  · rw [succeed_next, releaseAll_eq_nil] at h; exact .inl ⟨hl, h.symm⟩
  · exact .inr h

/-- MSG_CREATE_TEXT (R107): an error that registers nothing, or a Message of fewer than MAX_RAW_BYTES + 1 bytes. -/
theorem execMsgCreateText_next {s t : State} (h : execMsgCreateText s = .next t) :
    (∃ e n, e ≠ ErrCode.ok ∧ t = (s.spendFree (s.textRaced s.argA) n).complete e 0) ∨
    (∃ bytes n, s.ctxLive = true ∧ s.slotFree = true ∧ s.handleLeft = true ∧ bytes.length ≤ s.cfg.maxRawBytes ∧
      t = ((s.spendFree (s.textRaced s.argA) n).register
        (rawStore bytes (8 * bytes.length)) (BitVec.ofNat 64 (8 * bytes.length))).complete .ok
          (s.newHandle.setWidth 64)) := by
  have spend0 : ∀ r : Bool, s.spendFree r 0 = s := by intro r; cases r <;> rfl
  rcases withContext_next h with ⟨hl, h⟩ | ⟨_, h⟩
  · split at h
    · rename_i hc
      rw [Bool.and_eq_true] at hc
      simp only [State.opAddr] at h
      split at h
      · cases h
      · rw [raise_next] at h; exact .inl ⟨.alloc, _, by decide, h.symm⟩
      · rename_i bytes hs
        have hlen := State.scanText_length s _ _ _ _ _ hs
        rw [createMessage_next] at h
        refine .inr ⟨bytes, s.cfg.maxRawBytes + 1, hl, hc.1, hc.2, by omega, h.symm.trans ?_⟩
        simp [State.newHandle]
    · rw [raise_next] at h; exact .inl ⟨.alloc, 0, by decide, by rw [spend0]; exact h.symm⟩
  · exact .inl ⟨.noContext, 0, by decide, by rw [spend0]; exact h⟩

/-- MSG_CREATE_BUF with its operands in ARG_A and ARG_B (R73, R108). -/
theorem execMsgCreateBuf_eq (s : State) :
    execMsgCreateBuf s = withContext s (
      if s.canAllocMsg s.argB.toNat then
        match s.memRead (s.raced s.argA ((s.argB.toNat + 7) / 8)) s.argA ((s.argB.toNat + 7) / 8) 0 with
        | .error a => .fault (.stuck a)
        | .ok src => createMessage (rawStore src s.argB.toNat) s.argB
            (s.spendFree (s.raced s.argA ((s.argB.toNat + 7) / 8)) ((s.argB.toNat + 7) / 8))
      else raise .alloc s) := rfl

/-- MSG_CREATE_TEXT with its operand in ARG_A (R73, R107). -/
theorem execMsgCreateText_eq (s : State) :
    execMsgCreateText s = withContext s (
      if s.slotFree && s.handleLeft then
        match s.scanText (s.textRaced s.argA) s.argA (s.cfg.maxRawBytes + 1) 0 with
        | .refused a => .fault (.stuck a)
        | .unterminated => raise .alloc
            (s.spendFree (s.textRaced s.argA) (s.cfg.maxRawBytes + 1))
        | .text bytes => createMessage (rawStore bytes (8 * bytes.length)) (BitVec.ofNat 64 (8 * bytes.length))
            (s.spendFree (s.textRaced s.argA) (s.cfg.maxRawBytes + 1))
      else raise .alloc s) := rfl

/-- MSG_CREATE_BUF (R108): an error that registers nothing, or a Message of ceil(L/8) bytes. -/
theorem execMsgCreateBuf_next {s t : State} (h : execMsgCreateBuf s = .next t) :
    (∃ e, e ≠ ErrCode.ok ∧ t = s.complete e 0) ∨
    (∃ src, s.ctxLive = true ∧ s.canAllocMsg s.argB.toNat = true ∧ src.length = (s.argB.toNat + 7) / 8 ∧
      t = ((s.spendFree (s.raced s.argA ((s.argB.toNat + 7) / 8)) ((s.argB.toNat + 7) / 8)).register
        (rawStore src s.argB.toNat) s.argB).complete .ok (s.newHandle.setWidth 64)) := by
  rw [execMsgCreateBuf_eq] at h
  rcases withContext_next h with ⟨hl, h⟩ | ⟨_, h⟩
  · by_cases hc : s.canAllocMsg s.argB.toNat = true
    · rw [if_pos hc] at h
      cases hs : s.memRead (s.raced s.argA ((s.argB.toNat + 7) / 8)) s.argA ((s.argB.toNat + 7) / 8) 0 with
      | error a => rw [hs] at h; cases h
      | ok src =>
        rw [hs] at h
        dsimp only at h
        rw [createMessage_next] at h
        refine .inr ⟨src, hl, hc, State.memRead_length s _ _ _ _ _ hs, h.symm.trans ?_⟩
        simp [State.newHandle]
    · rw [if_neg hc, raise_next] at h; exact .inl ⟨.alloc, by decide, h.symm⟩
  · exact .inl ⟨.noContext, by decide, h⟩

/-- MSG_DELETE (R109). -/
theorem execMsgDelete_next {s t : State} (h : execMsgDelete s = .next t) :
    (∃ e, e ≠ ErrCode.ok ∧ t = s.complete e 0) ∨
    (s.ctxLive = true ∧ (∃ m, s.msg? s.handle = some m) ∧ t = (s.dropMsg s.handle).complete .ok 0) := by
  rcases withContext_next h with ⟨hl, h⟩ | ⟨_, h⟩
  · rcases withMessage_next h with ⟨m, hm, h⟩ | ⟨_, h⟩
    · rw [succeed_next] at h; exact .inr ⟨hl, ⟨m, hm⟩, h.symm⟩
    · exact .inl ⟨.notFound, by decide, h⟩
  · exact .inl ⟨.noContext, by decide, h⟩

/-- MSG_PREPROCESS (R123): a completion that changes no record, or a Raw Message padded. -/
theorem execMsgPreprocess_next {s t : State} (h : execMsgPreprocess s = .next t) :
    (∃ e, t = s.complete e 0) ∨
    (∃ m, s.ctxLive = true ∧ s.msg? s.handle = some m ∧ m.phase = .raw ∧
      padBytes m.bitLength.toNat ≤ s.cfg.maxPadBytes ∧
      t = (s.setMsg s.handle ⟨m.bitLength, m.raw, .preprocessed (padLen m.bitLength.toNat)
        (pad m.raw m.bitLength.toNat)⟩).complete .ok 0) := by
  rcases withContext_next h with ⟨hl, h⟩ | ⟨_, h⟩
  · rcases withMessage_next h with ⟨m, hm, h⟩ | ⟨_, h⟩
    · split at h
      · rw [succeed_next] at h; exact .inl ⟨.ok, h.symm⟩
      · rw [succeed_next] at h; exact .inl ⟨.ok, h.symm⟩
      · rename_i hr
        dsimp only at h
        split at h
        · rename_i hp
          rw [succeed_next] at h; exact .inr ⟨m, hl, hm, hr, hp, h.symm⟩
        · rw [raise_next] at h; exact .inl ⟨.alloc, h.symm⟩
    · exact .inl ⟨.notFound, h⟩
  · exact .inl ⟨.noContext, h⟩

/-- MSG_DIGEST (R153): a completion that changes no record and no register of the engine, or a Preprocessed Message
digested. -/
theorem execMsgDigest_next {s t : State} (h : execMsgDigest s = .next t) :
    (∃ e, t = s.complete e 0) ∨
    (∃ m P buf, s.ctxLive = true ∧ s.msg? s.handle = some m ∧ m.phase = .preprocessed P buf ∧
      t = (({ s with engine := s.engine.run buf (P / 512) } : State).setMsg s.handle
        ⟨m.bitLength, m.raw, .digested P buf (serialise (s.engine.run buf (P / 512)).H)⟩).complete .ok 0) := by
  rcases withContext_next h with ⟨hl, h⟩ | ⟨_, h⟩
  · rcases withMessage_next h with ⟨m, hm, h⟩ | ⟨_, h⟩
    · split at h
      · rw [raise_next] at h; exact .inl ⟨.notPreprocessed, h.symm⟩
      · rw [succeed_next] at h; exact .inl ⟨.ok, h.symm⟩
      · rename_i P buf hp
        rw [succeed_next] at h; exact .inr ⟨m, P, buf, hl, hm, hp, h.symm⟩
    · exact .inl ⟨.notFound, h⟩
  · exact .inl ⟨.noContext, h⟩

/-- The read-back and iteration commands answer a completion of the state they started in (R60). -/
theorem readBack_next (i : Instr) (s : State)
    (hi : i ∈ [Instr.msgGetState, .msgGetBitlen, .msgGetPadlen, .msgReadRaw, .msgReadPadded, .msgReadDigest,
      .ctxMsgCount, .ctxMsgAt]) : ∃ e r, exec i s = .next (s.complete e r) ∧ (e ≠ .ok → r = 0) := by
  have ctx : ∀ k : Result, (∃ e r, k = .next (s.complete e r) ∧ (e ≠ .ok → r = 0)) →
      ∃ e r, withContext s k = .next (s.complete e r) ∧ (e ≠ .ok → r = 0) := by
    intro k hk
    cases hl : s.ctxLive
    · exact ⟨.noContext, 0, by simp [hl, raise], fun _ => rfl⟩
    · simpa [hl] using hk
  have msg : ∀ k : Message → Result, (∀ m, ∃ e r, k m = .next (s.complete e r) ∧ (e ≠ .ok → r = 0)) →
      ∃ e r, withMessage s k = .next (s.complete e r) ∧ (e ≠ .ok → r = 0) := by
    intro k hk
    cases hm : s.msg? s.handle with
    | none => exact ⟨.notFound, 0, by simp [withMessage_none k hm, raise], fun _ => rfl⟩
    | some m => rw [withMessage_some k hm]; exact hk m
  have good : ∀ r, ∃ e q, succeed r s = .next (s.complete e q) ∧ (e ≠ .ok → q = 0) :=
    fun r => ⟨.ok, r, rfl, fun h => absurd rfl h⟩
  have bad : ∀ x, ∃ e q, raise x s = .next (s.complete e q) ∧ (e ≠ .ok → q = 0) :=
    fun x => ⟨x, 0, rfl, fun _ => rfl⟩
  simp only [List.mem_cons, List.not_mem_nil, or_false] at hi
  rcases hi with rfl | rfl | rfl | rfl | rfl | rfl | rfl | rfl <;> refine ctx _ ?_
  · exact msg _ fun m => good _
  · exact msg _ fun m => good _
  · refine msg _ fun m => ?_
    split
    · exact bad _
    · exact good _
  · refine msg _ fun m => ?_
    split
    · exact good _
    · exact bad _
  · refine msg _ fun m => ?_
    split
    · exact bad _
    · split
      · exact good _
      · exact bad _
  · refine msg _ fun m => ?_
    split
    · exact bad _
    · split
      · exact good _
      · exact bad _
  · exact good _
  · split
    · exact good _
    · exact bad _

/-- A CMD word runs its command or completes with IllegalCommandError (R213). -/
theorem runWord_cases (v : Word) (s : State) :
    (∃ i, decode v = .ok i ∧ runWord v s = exec i s) ∨
    ((∃ e, decode v = .error e) ∧ runWord v s = .next (s.complete .illegal 0)) := by
  unfold runWord
  cases h : decode v with
  | ok i => exact .inl ⟨i, rfl, rfl⟩
  | error e => exact .inr ⟨⟨e, rfl⟩, rfl⟩

/-- A defined write that is not refused: a command cycle, or a register write. -/
theorem writeEffect_next {s t : State} {r : Reg} {p : Part} {v : Dword} (h : s.writeEffect r p v = .next t) :
    (r = .cmd ∧ ∃ u, runWord (v.setWidth 32) s = .next u ∧ t = u.landStores) ∨
    (r ≠ .cmd ∧ t = s.writeReg r p v) := by
  cases r <;> simp only [State.writeEffect] at h
  case cmd =>
    obtain ⟨u, hu, ht⟩ := mapNext_eq_next.1 h
    exact .inl ⟨rfl, u, hu, ht.symm⟩
  all_goals
    refine .inr ⟨by decide, ?_⟩
    injection h with h
    exact h.symm

/-- What a step that answers a next state did: nothing (idle), a host event, a read, a register write or a command. -/
theorem step_next {s t : State} (h : step s = .next t) :
    (s.bus = [] ∧ t = s) ∨
    (∃ rest, s.bus = .reset :: rest ∧ t = ({ s with bus := rest } : State).resetBlock) ∨
    (∃ rest addr b, s.bus = .store addr b :: rest ∧
      t = { s with bus := rest, hostMem := s.hostMem.write addr.toNat b }) ∨
    (∃ rest addr b, s.bus = .racingStore addr b :: rest ∧
      t = { s with bus := rest, racing := s.racing ++ [(addr.toNat, b)] }) ∨
    (∃ e rest obs, s.bus = e :: rest ∧ t = { s with bus := rest, observed := obs }) ∨
    (∃ e rest ses r p v, s.bus = e :: rest ∧
      t = ({ s with bus := rest, session := ses } : State).writeReg r p v) ∨
    (∃ e rest ses v u, s.bus = e :: rest ∧
      runWord v { s with bus := rest, session := ses } = .next u ∧ t = u.landStores) := by
  unfold step at h
  cases hb : s.bus with
  | nil => rw [hb] at h; injection h with h; exact .inl ⟨rfl, h.symm⟩
  | cons e rest =>
    rw [hb] at h
    right
    cases e with
    | reset => injection h with h; exact .inl ⟨rest, rfl, h.symm⟩
    | store a b => injection h with h; exact .inr (.inl ⟨rest, a, b, rfl, h.symm⟩)
    | racingStore a b => injection h with h; exact .inr (.inr (.inl ⟨rest, a, b, rfl, h.symm⟩))
    | read ag a w =>
      simp only [hostEvent, hostRead] at h
      split at h
      · injection h with h
        exact .inr (.inr (.inr (.inl ⟨_, rest, s.observed, rfl, h.symm⟩)))
      · cases h
      · split at h
        · cases h
        · injection h with h
          exact .inr (.inr (.inr (.inl ⟨_, rest, _, rfl, h.symm⟩)))
    | write ag a w v =>
      simp only [hostEvent, hostWrite] at h
      split at h
      · injection h with h
        exact .inr (.inr (.inr (.inl ⟨_, rest, s.observed, rfl, h.symm⟩)))
      · cases h
      · split at h
        · cases h
        · rcases writeEffect_next h with ⟨_, u, hu, ht⟩ | ⟨_, ht⟩
          · exact .inr (.inr (.inr (.inr (.inr ⟨_, rest, _, _, u, rfl, hu, ht⟩))))
          · exact .inr (.inr (.inr (.inr (.inl ⟨_, rest, _, _, _, _, rfl, ht⟩))))

end Sys2Proof.Machine
end

