-- ==== Sys2Proof/Laws/Padding.lean ====
section
/-! SUPPORT. The sizes of the padded buffer (R121, R122). -/

namespace Sys2Proof.Machine

theorem be64_length (L : Nat) : (be64 L).length = 8 := by simp [be64]

/-- The padded buffer holds the content and at least 9 bytes more (R122: the byte q is never inside the length field). -/
theorem padBytes_ge (L : Nat) : L / 8 + 9 ≤ padBytes L ∧ (L + 7) / 8 ≤ padBytes L := by
  unfold padBytes padLen; omega

theorem padContent_length (raw : List Byte) (L : Nat) (h : raw.length = rawBytes L) :
    (padContent raw L).length = padBytes L := by
  have := padBytes_ge L
  simp only [padContent, List.length_append, List.length_take, List.length_replicate]
  unfold rawBytes at h
  omega

@[simp] theorem padMark_length (buf : List Byte) (L : Nat) : (padMark buf L).length = buf.length := by
  simp [padMark]

theorem pad_length (raw : List Byte) (L : Nat) (h : raw.length = rawBytes L) : (pad raw L).length = padBytes L := by
  have := padBytes_ge L
  simp only [pad, padLength, List.length_append, List.length_take, padMark_length, padContent_length raw L h,
    be64_length]
  omega

end Sys2Proof.Machine
end

