-- ==== Sys2Proof/Laws/PerInstr.lean ====
section
/-! SUPPORT. The family Encoding: for each command, its CMD word is legal and decodes to it (R74, R75). -/

namespace Sys2Proof.Laws.Encoding

/-- A command is well formed, its CMD word is legal, and the decoder reads the command back from it. -/
def Statement (i : Instr) : Prop :=
  i.wellFormed = true ∧ wordLegal (encode i) = true ∧ decode (encode i) = .ok i

theorem ctxCreate : Statement .ctxCreate := by refine ⟨rfl, ?_, ?_⟩ <;> decide

theorem ctxDestroy : Statement .ctxDestroy := by refine ⟨rfl, ?_, ?_⟩ <;> decide

theorem msgCreateText : Statement .msgCreateText := by refine ⟨rfl, ?_, ?_⟩ <;> decide

theorem msgCreateBuf : Statement .msgCreateBuf := by refine ⟨rfl, ?_, ?_⟩ <;> decide

theorem msgDelete : Statement .msgDelete := by refine ⟨rfl, ?_, ?_⟩ <;> decide

theorem msgPreprocess : Statement .msgPreprocess := by refine ⟨rfl, ?_, ?_⟩ <;> decide

theorem msgDigest : Statement .msgDigest := by refine ⟨rfl, ?_, ?_⟩ <;> decide

theorem msgGetState : Statement .msgGetState := by refine ⟨rfl, ?_, ?_⟩ <;> decide

theorem msgGetBitlen : Statement .msgGetBitlen := by refine ⟨rfl, ?_, ?_⟩ <;> decide

theorem msgGetPadlen : Statement .msgGetPadlen := by refine ⟨rfl, ?_, ?_⟩ <;> decide

theorem msgReadRaw : Statement .msgReadRaw := by refine ⟨rfl, ?_, ?_⟩ <;> decide

theorem msgReadPadded : Statement .msgReadPadded := by refine ⟨rfl, ?_, ?_⟩ <;> decide

theorem msgReadDigest : Statement .msgReadDigest := by refine ⟨rfl, ?_, ?_⟩ <;> decide

theorem ctxMsgCount : Statement .ctxMsgCount := by refine ⟨rfl, ?_, ?_⟩ <;> decide

theorem ctxMsgAt : Statement .ctxMsgAt := by refine ⟨rfl, ?_, ?_⟩ <;> decide

end Sys2Proof.Laws.Encoding
end

