-- ==== Sys2Proof/Tests/Slice0.lean ====
section
/-! SUPPORT. The model's own tests: well-formedness, words written out from spec/30_encoding.md, one step per test with
results taken from spec/95_test_vectors.md, and for each statement with hypotheses a witness that meets them. -/

namespace Sys2Proof.Tests

open Sys2Proof Sys2Proof.Machine

/-! ### Small states -/

/-- STATUS and RESULT after a step, as the tables of L2-C write them. -/
def outcome (r : Result) : Option (Nat × Nat) := (nextState? r).map fun t => (t.status.toNat, t.result.toNat)

/-- A step that answers a next state with a checked property. -/
theorem next_with (r : Result) (p : State → Bool) (h : (nextState? r).any p = true) :
    ∃ t, r = .next t ∧ p t = true := by
  cases r with
  | next t => exact ⟨t, rfl, by simpa [nextState?] using h⟩
  | fault _ => cases h
  | refused _ => cases h

/-- The bytes of L2-P2 row "abc". -/
def abc : List Byte := [0x61, 0x62, 0x63]

/-- The digest of L1-2, byte 0 first. -/
def abcDigest : Vector Byte 32 :=
  #v[0xba, 0x78, 0x16, 0xbf, 0x8f, 0x01, 0xcf, 0xea, 0x41, 0x41, 0x40, 0xde, 0x5d, 0xae, 0x22, 0x23,
     0xb0, 0x03, 0x61, 0xa3, 0x96, 0x17, 0x7a, 0x9c, 0xb4, 0x10, 0xff, 0x61, 0xf2, 0x00, 0x15, 0xad]

/-- A live Context and the text "abc" at 0x1000, after CTX_CREATE (C-1). -/
def live : State :=
  { State.reset with
    ctxLive := true
    status := 0x100
    argA := 0x1000
    argB := 24
    hostMem := [(0x1000, 0x61), (0x1001, 0x62), (0x1002, 0x63), (0x1003, 0x00)] }

def rawAbc : Message := ⟨24, abc, .raw⟩

def paddedAbc : Message := ⟨24, abc, .preprocessed 512 (pad abc 24)⟩

def digestedAbc : Message := ⟨24, abc, .digested 512 (pad abc 24) abcDigest⟩

def emptyMessage : Message := ⟨0, [0], .raw⟩

/-- `order = [1]`, HANDLE = 1, ARG_A = 0. -/
def holding (m : Message) : State := { live with messages := [(1, m)], nextHandle := 2, handle := 1, argA := 0 }

/-- `order = [1, 2, 3]`: a Raw, a Preprocessed and a Digested Message. -/
def three : State :=
  { live with messages := [(1, rawAbc), (2, paddedAbc), (3, digestedAbc)], nextHandle := 4, handle := 2, argA := 0 }

/-- An instance with two slots of three bytes. -/
def small : Config := { Config.reference with maxMessages := 2, maxRawBytes := 3, maxPadBytes := 64 }

def smallLive : State := { live with cfg := small }

/-- No Context, after reset. -/
def dead : State := { State.reset with handle := 1 }

/-! ### Well-formedness: an ill-formed term for each check -/

theorem test_wf_reserved_bits : wordReservedZero 0x00000106 = false ∧ wordReservedZero 0x00000006 = true := by decide

theorem test_wf_opcode : wordOpcodeAssigned 0x00000000 = false ∧ wordOpcodeAssigned 0x00000010 = false ∧
    wordOpcodeAssigned 0x000000FF = false ∧ wordOpcodeAssigned 0x0000000F = true := by decide

theorem test_wf_word : wordLegal 0x00000106 = false ∧ wordLegal 0x00000010 = false ∧ wordLegal 0x00000001 = true := by
  decide

theorem test_wf_command : ∀ i : Instr, i.wellFormed = true := fun _ => rfl

theorem test_wf_config_reference : Config.reference.wf = true ∧ small.wf = true := by decide

theorem test_wf_config_base : ({ Config.reference with devBase := 0x80 } : Config).wf = false := by decide

theorem test_wf_config_addr_bits : ({ Config.reference with hostAddrBits := 0 } : Config).wf = false ∧
    ({ Config.reference with hostAddrBits := 65 } : Config).wf = false := by decide

theorem test_wf_config_messages : ({ Config.reference with maxMessages := 0 } : Config).wf = false := by decide

theorem test_wf_config_raw : ({ Config.reference with maxRawBytes := 0 } : Config).wf = false ∧
    ({ Config.reference with maxRawBytes := 2 ^ 61 } : Config).wf = false := by decide

theorem test_wf_config_pad : ({ Config.reference with maxPadBytes := 0 } : Config).wf = false ∧
    ({ Config.reference with maxPadBytes := 96 } : Config).wf = false := by decide

/-! ### Decoding: RSVD, bits 31 to 8, then OPCODE, bits 7 to 0 (R70, R74) -/

theorem test_decode_ctx_create : decode (0b000000000000000000000000#24 ++ 0b00000001#8) = .ok .ctxCreate := by decide

theorem test_decode_ctx_destroy : decode (0b000000000000000000000000#24 ++ 0b00000010#8) = .ok .ctxDestroy := by decide

theorem test_decode_msg_create_text :
    decode (0b000000000000000000000000#24 ++ 0b00000011#8) = .ok .msgCreateText := by decide

theorem test_decode_msg_create_buf :
    decode (0b000000000000000000000000#24 ++ 0b00000100#8) = .ok .msgCreateBuf := by decide

theorem test_decode_msg_delete : decode (0b000000000000000000000000#24 ++ 0b00000101#8) = .ok .msgDelete := by decide

theorem test_decode_msg_preprocess :
    decode (0b000000000000000000000000#24 ++ 0b00000110#8) = .ok .msgPreprocess := by decide

theorem test_decode_msg_digest : decode (0b000000000000000000000000#24 ++ 0b00000111#8) = .ok .msgDigest := by decide

theorem test_decode_msg_get_state :
    decode (0b000000000000000000000000#24 ++ 0b00001000#8) = .ok .msgGetState := by decide

theorem test_decode_msg_get_bitlen :
    decode (0b000000000000000000000000#24 ++ 0b00001001#8) = .ok .msgGetBitlen := by decide

theorem test_decode_msg_get_padlen :
    decode (0b000000000000000000000000#24 ++ 0b00001010#8) = .ok .msgGetPadlen := by decide

theorem test_decode_msg_read_raw :
    decode (0b000000000000000000000000#24 ++ 0b00001011#8) = .ok .msgReadRaw := by decide

theorem test_decode_msg_read_padded :
    decode (0b000000000000000000000000#24 ++ 0b00001100#8) = .ok .msgReadPadded := by decide

theorem test_decode_msg_read_digest :
    decode (0b000000000000000000000000#24 ++ 0b00001101#8) = .ok .msgReadDigest := by decide

theorem test_decode_ctx_msg_count :
    decode (0b000000000000000000000000#24 ++ 0b00001110#8) = .ok .ctxMsgCount := by decide

theorem test_decode_ctx_msg_at : decode (0b000000000000000000000000#24 ++ 0b00001111#8) = .ok .ctxMsgAt := by decide

theorem test_decode_illegal :
    decode (0b000000000000000000000000#24 ++ 0b00000000#8) = .error (.unassignedOpcode 0x00) ∧
    decode (0b000000000000000000000000#24 ++ 0b00010000#8) = .error (.unassignedOpcode 0x10) ∧
    decode (0b000000000000000000000000#24 ++ 0b10000001#8) = .error (.unassignedOpcode 0x81) ∧
    decode (0b000000000000000000000001#24 ++ 0b00000110#8) = .error .reservedBits ∧
    decode (0b100000000000000000000000#24 ++ 0b00000001#8) = .error .reservedBits := by decide

theorem test_decode_table_word : decodeTableWord 32 0x07 = some .msgDigest ∧ decodeTableWord 32 0x10 = none ∧
    decodeTableWord 32 0x107 = none := by decide

/-- Every row of the opcode map stands alone: no two rows select one word (R74). -/
theorem test_opcode_rows_distinct : (opcodeMap.map OpcodeRow.word).Nodup ∧ opcodeMap.length = 15 := by decide

/-- The word put where the step takes its next event runs as the first command after reset: CTX_CREATE (C-1) and an
illegal word (C-4). -/
theorem test_fetch_word : outcome (step (State.reset.withFetchWord 32 0x01)) = some (0x100, 0) ∧
    outcome (step (State.reset.withFetchWord 32 0x100)) = some (0x004, 0) ∧
    outcome (step (State.reset.withFetchWord 32 0x03)) = some (0x005, 0) := by decide +kernel

/-! ### The Context commands (L2-C) -/

/-- C-1, C-2. -/
theorem test_ctx_create : outcome (exec .ctxCreate State.reset) = some (0x100, 0) ∧
    outcome (exec .ctxCreate live) = some (0x101, 0) := by decide

/-- C-24. -/
theorem test_ctx_destroy : outcome (exec .ctxDestroy three) = some (0x000, 0) ∧
    (nextState? (exec .ctxDestroy three)).map State.order = some [] ∧
    (nextState? (exec .ctxDestroy three)).map State.nextHandle = some 4 := by decide +kernel

/-- C-26; R111 with three Messages. -/
theorem test_ctx_msg_count : outcome (exec .ctxMsgCount live) = some (0x100, 0) ∧
    outcome (exec .ctxMsgCount three) = some (0x100, 3) := by decide +kernel

/-- C-25; R112 at the last position and one past it. -/
theorem test_ctx_msg_at : outcome (exec .ctxMsgAt { live with argA := 0 }) = some (0x107, 0) ∧
    outcome (exec .ctxMsgAt { three with argA := 2 }) = some (0x100, 3) ∧
    outcome (exec .ctxMsgAt { three with argA := 3 }) = some (0x107, 0) := by decide +kernel

/-! ### The Message commands (L2-C, L2-P2) -/

/-- Row "abc" of L2-P2: L = 24, raw 61 62 63. -/
theorem test_msg_create_text : outcome (exec .msgCreateText live) = some (0x100, 1) ∧
    (nextState? (exec .msgCreateText live)).bind (fun t => t.msg? 1) = some rawAbc := by decide +kernel

/-- Row "" of L2-P2; C-20 and C-21 with MAX_RAW_BYTES = 3 and 2; R57. -/
theorem test_msg_create_text_corners :
    (nextState? (exec .msgCreateText { live with argA := 0x1003 })).bind (fun t => t.msg? 1) = some emptyMessage ∧
    outcome (exec .msgCreateText smallLive) = some (0x100, 1) ∧
    outcome (exec .msgCreateText { live with cfg := { small with maxRawBytes := 2 } }) = some (0x101, 0) ∧
    exec .msgCreateText { live with argA := 0x0FFF } = .fault (.stuck 0x0FFF) := by
  refine ⟨?_, ?_, ?_, rfl⟩ <;> decide +kernel

/-- Rows "FF, L = 5" and "A5 FF, L = 12" of L2-P2, and L = 0 with no byte read. -/
theorem test_msg_create_buf :
    (nextState? (exec .msgCreateBuf { live with argB := 5, hostMem := [(0x1000, 0xFF)] })).bind
      (fun t => t.msg? 1) = some ⟨5, [0xF8], .raw⟩ ∧
    (nextState? (exec .msgCreateBuf { live with argB := 12, hostMem := [(0x1000, 0xA5), (0x1001, 0xFF)] })).bind
      (fun t => t.msg? 1) = some ⟨12, [0xA5, 0xF0], .raw⟩ ∧
    (nextState? (exec .msgCreateBuf { live with argB := 0, hostMem := [] })).bind (fun t => t.msg? 1) =
      some emptyMessage := by decide +kernel

/-- C-17 and C-18 with two slots of three bytes; C-22. -/
theorem test_msg_create_buf_alloc :
    outcome (exec .msgCreateBuf { smallLive with messages := [(1, rawAbc), (2, rawAbc)], argB := 8 }) =
      some (0x101, 0) ∧
    outcome (exec .msgCreateBuf { smallLive with argB := 25 }) = some (0x101, 0) ∧
    outcome (exec .msgCreateBuf { smallLive with argB := 24 }) = some (0x100, 1) ∧
    outcome (exec .msgCreateBuf { live with nextHandle := 0x100000000 }) = some (0x101, 0) := by decide +kernel

/-- P3 line 5: delete the middle one; lines 10 and 11: again, and null. -/
theorem test_msg_delete : (nextState? (exec .msgDelete three)).map State.order = some [1, 3] ∧
    outcome (exec .msgDelete three) = some (0x100, 0) ∧
    outcome (exec .msgDelete { three with handle := 4 }) = some (0x103, 0) ∧
    outcome (exec .msgDelete { three with handle := 0 }) = some (0x103, 0) := by decide +kernel

/-- C-7, C-15; row "abc" of L2-P2. -/
theorem test_msg_preprocess : outcome (exec .msgPreprocess { three with handle := 0 }) = some (0x103, 0) ∧
    outcome (exec .msgPreprocess (holding digestedAbc)) = some (0x100, 0) ∧
    (nextState? (exec .msgPreprocess (holding rawAbc))).bind (fun t => t.msg? 1) = some paddedAbc := by decide +kernel

/-- C-23: PadBytes(24) = 64 does not fit a slot of 0 bytes; it fits one of 64. -/
theorem test_msg_preprocess_alloc :
    outcome (exec .msgPreprocess { holding rawAbc with cfg := { small with maxPadBytes := 0 } }) = some (0x101, 0) ∧
    outcome (exec .msgPreprocess { holding rawAbc with cfg := small }) = some (0x100, 0) := by decide +kernel

/-- C-8, and P1 line 23. -/
theorem test_msg_digest_raw : outcome (exec .msgDigest (holding rawAbc)) = some (0x102, 0) ∧
    outcome (exec .msgDigest (holding digestedAbc)) = some (0x100, 0) := by decide +kernel

/-- L1-2. -/
theorem test_msg_digest_abc :
    (nextState? (exec .msgDigest (holding paddedAbc))).bind (fun t => t.msg? 1) = some digestedAbc := by decide +kernel

/-! ### Read-back (L2-C) -/

/-- R170, C-16. -/
theorem test_msg_get_state : outcome (exec .msgGetState (holding rawAbc)) = some (0x100, 0) ∧
    outcome (exec .msgGetState (holding paddedAbc)) = some (0x100, 1) ∧
    outcome (exec .msgGetState (holding digestedAbc)) = some (0x100, 2) := by decide +kernel

theorem test_msg_get_bitlen : outcome (exec .msgGetBitlen (holding rawAbc)) = some (0x100, 24) ∧
    outcome (exec .msgGetBitlen dead) = some (0x005, 0) := by decide +kernel

/-- C-10, P1 line 14. -/
theorem test_msg_get_padlen : outcome (exec .msgGetPadlen (holding rawAbc)) = some (0x102, 0) ∧
    outcome (exec .msgGetPadlen (holding digestedAbc)) = some (0x100, 512) := by decide +kernel

/-- C-11, C-12, L1-11. -/
theorem test_msg_read_raw : outcome (exec .msgReadRaw { holding rawAbc with argA := 3 }) = some (0x107, 0) ∧
    outcome (exec .msgReadRaw { holding rawAbc with argA := 2 }) = some (0x100, 0x63) ∧
    outcome (exec .msgReadRaw (holding emptyMessage)) = some (0x100, 0) ∧
    outcome (exec .msgReadRaw { holding emptyMessage with argA := 1 }) = some (0x107, 0) := by decide +kernel

/-- C-13; bytes 3 and 63 of row "abc" of L2-P2; R174 on a Raw Message. -/
theorem test_msg_read_padded : outcome (exec .msgReadPadded { holding paddedAbc with argA := 64 }) = some (0x107, 0) ∧
    outcome (exec .msgReadPadded { holding paddedAbc with argA := 3 }) = some (0x100, 0x80) ∧
    outcome (exec .msgReadPadded { holding paddedAbc with argA := 63 }) = some (0x100, 0x18) ∧
    outcome (exec .msgReadPadded { holding rawAbc with argA := 64 }) = some (0x102, 0) := by decide +kernel

/-- C-9, C-14, P1 lines 19 and 22. -/
theorem test_msg_read_digest : outcome (exec .msgReadDigest (holding rawAbc)) = some (0x106, 0) ∧
    outcome (exec .msgReadDigest { holding digestedAbc with argA := 32 }) = some (0x107, 0) ∧
    outcome (exec .msgReadDigest (holding digestedAbc)) = some (0x100, 0xBA) ∧
    outcome (exec .msgReadDigest { holding digestedAbc with argA := 31 }) = some (0x100, 0xAD) := by decide +kernel

/-! ### The register block -/

/-- R53, R54: 64-bit accesses at 0x00 and 0x18, and misaligned ones, are bus errors; halves of ARG_A. -/
theorem test_select : selectReg 0x00 64 = none ∧ selectReg 0x18 64 = none ∧ selectReg 0x0C 64 = none ∧
    selectReg 0x02 32 = none ∧ selectReg 0x08 16 = none ∧ selectReg 0x0C 32 = some (.argA, .high) ∧
    selectReg 0x20 64 = some (.result, .whole) ∧ selectReg 0x1C 32 = some (.reserved, .whole) ∧
    selectReg 0xFC 32 = some (.reserved, .whole) := by decide

/-- R54: a 32-bit write changes its half alone. -/
theorem test_halves : Part.low.put 0xAAAABBBB 0x1111222233334444 = 0x11112222AAAABBBB ∧
    Part.high.put 0xAAAABBBB 0x1111222233334444 = 0xAAAABBBB33334444 ∧
    Part.high.get 0x1111222233334444 = 0x11112222 := by decide

/-- R236: agent 1 reads inside the sequence of agent 0; alone, the read is answered. -/
theorem test_interleaved :
    step { live with bus := [.read 1 0x04 32, .write 0 0x00 32 0x01], session := some ⟨0, true, false⟩ } =
      .refused (.interleaved 0 1) ∧
    (nextState? (step { live with bus := [.read 0 0x04 32] })).map State.observed = some [⟨0, 0x04, 32, 0x100⟩] := by
  refine ⟨rfl, ?_⟩
  decide +kernel

/-! ### Padding and the engine (L2-F, L2-P1, L2-P2, L2-D) -/

/-- L2-P1, whole. -/
theorem test_pad_len : [0, 1, 440, 447, 448, 449, 504, 511, 512, 959, 960, 1023, 1024].map padLen =
    [512, 512, 512, 512, 1024, 1024, 1024, 1024, 1024, 1024, 1536, 1536, 1536] ∧ padBytes 32768 = 4160 := by decide

/-- L2-P2, rows "80, L = 1", "01, L = 7", "FF, L = 8" and "FF, L = 5": first bytes and last byte. -/
theorem test_pad_bytes : (pad [0x80] 1).take 2 = [0xC0, 0x00] ∧ rawStore [0x01] 7 = [0x00] ∧
    (pad [0x00] 7).take 2 = [0x01, 0x00] ∧ (pad [0xFF] 8).take 3 = [0xFF, 0x80, 0x00] ∧
    (pad [0xF8] 5).take 2 = [0xFC, 0x00] ∧ (pad [0xF8] 5)[63]? = some 0x05 := by decide +kernel

/-- L2-P2, row "56 × FF, L = 447". -/
theorem test_pad_447 : (pad (rawStore (List.replicate 56 0xFF) 447) 447).drop 55 =
    [0xFF, 0, 0, 0, 0, 0, 0, 0x01, 0xBF] := by decide +kernel

/-- L2-P2, row "56 × a, L = 448": byte 56 and the last two bytes. -/
theorem test_pad_448 : (pad (List.replicate 56 0x61) 448)[56]? = some 0x80 ∧
    (pad (List.replicate 56 0x61) 448).drop 126 = [0x01, 0xC0] := by decide +kernel

/-- L2-F. -/
theorem test_word_functions : rotr 0x12345678 7 = 0xf02468ac ∧ smallSigma0 0x12345678 = 0xe7fce6ee ∧
    smallSigma1 0x12345678 = 0xa1f78649 ∧ bigSigma0 0x12345678 = 0x66146474 ∧ bigSigma1 0x12345678 = 0x3561abda ∧
    smallSigma0 0xffffffff = 0x1fffffff ∧ smallSigma1 0xffffffff = 0x003fffff ∧
    bigSigma0 1 = 0x40080400 ∧ bigSigma1 1 = 0x04200080 := by decide

/-- L2-F. -/
theorem test_ch_maj : ch 0xff00ff00 0x12345678 0x9abcdef0 = 0x12bc56f0 ∧
    maj 0xff00ff00 0x12345678 0x9abcdef0 = 0x9a34de70 := by decide

/-- R38, R39: the ends of the two ROMs. -/
theorem test_roms : romKWords.length = 64 ∧ romK 0 = 0x428a2f98 ∧ romK 31 = 0x14292967 ∧ romK 63 = 0xc67178f2 ∧
    romH0[0] = 0x6a09e667 ∧ romH0[7] = 0x5be0cd19 := by decide

/-- L2-D: the schedule of "abc". -/
theorem test_schedule : (Engine.atReset.schedule (pad abc 24)).w 0 = 0x61626380 ∧
    (Engine.atReset.schedule (pad abc 24)).w 15 = 0x00000018 ∧
    (Engine.atReset.schedule (pad abc 24)).w 17 = 0x000f0000 ∧
    (Engine.atReset.schedule (pad abc 24)).w 23 = 0xe2e2c38e ∧
    (Engine.atReset.schedule (pad abc 24)).w 63 = 0x12b1edeb := by decide +kernel

/-- L2-D: the rows after rounds 0 and 63. -/
theorem test_rounds :
    ((({ Engine.atReset with H := romH0 } : Engine).schedule (pad abc 24)).loadWorking.rounds 1).work =
      ⟨0x5d6aebcd, 0x6a09e667, 0xbb67ae85, 0x3c6ef372, 0xfa2a4622, 0x510e527f, 0x9b05688c, 0x1f83d9ab⟩ ∧
    ((({ Engine.atReset with H := romH0 } : Engine).schedule (pad abc 24)).loadWorking.compress).work =
      ⟨0x506e3058, 0xd39a2165, 0x04d24d6c, 0xb85e2ce9, 0x5ef50f24, 0xfb121210, 0x948d25b6, 0x961f4894⟩ := by
  refine ⟨?_, ?_⟩ <;> decide +kernel

/-- L1-2. -/
theorem test_digest_abc : sha256Digest (pad abc 24) = abcDigest := by decide +kernel

/-- L2-P2, row "FF, L = 5": the first four bytes. -/
theorem test_digest_five_bits : (sha256Digest (pad [0xF8] 5)).toList.take 4 = [0x34, 0xa3, 0x84, 0x2b] := by
  decide +kernel

/-- L2-P2, row "56 × a": two chunks, the first four bytes. -/
theorem test_digest_two_chunks : (sha256Digest (pad (List.replicate 56 0x61) 448)).toList.take 4 =
    [0xb3, 0x54, 0x39, 0xa4] := by decide +kernel

/-! ### Witnesses: for each statement with hypotheses, a state and operands that meet them, clause by clause -/

/-- `handleChecks`: no Context; a Context and a handle that is not live (null, never issued). -/
theorem witness_handle_checks : dead.ctxLive = false ∧ three.ctxLive = true ∧
    (0 : Handle) ∉ three.order ∧ (4 : Handle) ∉ three.order := by decide

/-- IllegalWordsCompleteWithIllegalCommandError: RSVD, OPCODE 0x00, 0x10 and 0xFF; and a word that is none of them. -/
theorem witness_illegal_words :
    (0x00000101 : Word).extractLsb' 8 24 ≠ 0 ∧ (0 : Word).extractLsb' 0 8 = 0 ∧
    0x10 ≤ ((0x10 : Word).extractLsb' 0 8).toNat ∧ 0x10 ≤ ((0xFF : Word).extractLsb' 0 8).toNat ∧
    ¬ ((0x0F : Word).extractLsb' 8 24 ≠ 0 ∨ (0x0F : Word).extractLsb' 0 8 = 0 ∨
      0x10 ≤ ((0x0F : Word).extractLsb' 0 8).toNat) := by decide

/-- StepRunsTheDecodedCommand, with a sequence of the same agent in progress. -/
theorem witness_step : ∃ s : State, s.bus = .write 1 s.cfg.devBase 32 0x07 :: [] ∧
    decode ((0x07 : Dword).setWidth 32) = .ok .msgDigest ∧
    ({ s with bus := [] } : State).intrudedOn 1 = none :=
  ⟨{ three with bus := [.write 1 0 32 0x07], session := some ⟨1, true, false⟩ }, rfl, by decide, rfl⟩

/-- StepRunsTheDecodedCommand: an illegal word. -/
theorem witness_step_illegal : ∃ s : State, s.bus = .write 1 s.cfg.devBase 32 0x10 :: [] ∧
    decode ((0x10 : Dword).setWidth 32) = .error (.unassignedOpcode 0x10) ∧
    ({ s with bus := [] } : State).intrudedOn 1 = none :=
  ⟨{ three with bus := [.write 1 0 32 0x10] }, rfl, by decide, rfl⟩

/-- IdleStepChangesNothing. -/
theorem witness_idle : State.reset.bus = [] := rfl

/-- CtxCreateResult, CtxDestroyReleasesEverything, CtxMsgCountResult, NoContextErrorBeforeEverythingElse. -/
theorem witness_context : live.ctxLive = true ∧ dead.ctxLive = false ∧ Instr.msgDigest ≠ .ctxCreate := by decide

/-- CtxMsgAtResult: the last position, and the first past it. -/
theorem witness_ctx_msg_at : three.ctxLive = true ∧ ({ three with argA := 2 } : State).argA.toNat < three.order.length ∧
    three.order.length ≤ ({ three with argA := 3 } : State).argA.toNat := by decide

/-- The text "abc" stands at 0x1000 for an instance whose raw storage it fills; a store just past its 0x00 is in flight. -/
theorem witness_text_at : textAt { smallLive with racing := [(0x1004, 0xFF)] } abc := by
  refine ⟨by decide, by decide, by decide, ?_, rfl⟩
  intro i hi
  match i, hi with
  | 0, _ => rfl
  | 1, _ => rfl
  | 2, _ => rfl

/-- MsgCreateTextResult: a text as long as the raw storage, and the empty text. -/
theorem witness_create_text : ∃ s t : State,
    (s.ctxLive = true ∧ s.messages.length < s.cfg.maxMessages ∧ s.nextHandle.toNat < 2 ^ 32 ∧ textAt s abc ∧
      abc.length = s.cfg.maxRawBytes) ∧
    (t.ctxLive = true ∧ t.messages.length < t.cfg.maxMessages ∧ t.nextHandle.toNat < 2 ^ 32 ∧ textAt t []) := by
  refine ⟨_, { live with argA := 0x1003 }, ⟨?_, ?_, ?_, witness_text_at, rfl⟩, rfl, by decide, by decide, rfl, by decide,
    by decide, fun _ hi => absurd hi (by simp), rfl⟩ <;> decide

/-- MsgCreateTextRacedBytesAreFree: a store to the 0x00 of "abc" (k = 3), in a window that is all admitted (n = 4 bytes)
and in one that ends at a refused address (n = 3, its store at k = 0). -/
theorem witness_create_text_raced : ∃ s t : State,
    (s.ctxLive = true ∧ s.messages.length < s.cfg.maxMessages ∧ s.nextHandle.toNat < 2 ^ 32 ∧ 3 ≤ s.cfg.maxRawBytes ∧
      (∀ i < 3, ∃ b, s.hostMem.read ((s.argA.toNat + i) % 2 ^ s.cfg.hostAddrBits) = some b ∧ b ≠ 0) ∧
      s.raced s.argA (3 + 1) = true ∧ 4 = s.cfg.maxRawBytes + 1 ∧
      (∀ i < 4, (s.hostMem.read ((s.argA.toNat + i) % 2 ^ s.cfg.hostAddrBits)).isSome = true)) ∧
    (t.ctxLive = true ∧ t.messages.length < t.cfg.maxMessages ∧ t.nextHandle.toNat < 2 ^ 32 ∧ 0 ≤ t.cfg.maxRawBytes ∧
      t.raced t.argA (0 + 1) = true ∧ 3 < t.cfg.maxRawBytes + 1 ∧
      (∀ i < 3, (t.hostMem.read ((t.argA.toNat + i) % 2 ^ t.cfg.hostAddrBits)).isSome = true) ∧
      t.hostMem.read ((t.argA.toNat + 3) % 2 ^ t.cfg.hostAddrBits) = none) := by
  refine ⟨{ smallLive with racing := [(0x1003, 0xFF)] },
    { smallLive with
      racing := [(0x1000, 0xFF)], hostMem := [(0x1000, 0x61), (0x1001, 0x62), (0x1002, 0x63)] },
    ⟨rfl, by decide, by decide, by decide, fun i hi => ?_, by decide, rfl, by decide⟩,
    rfl, by decide, by decide, by decide, by decide, by decide, by decide, rfl⟩
  match i, hi with
  | 0, _ => exact ⟨0x61, rfl, by decide⟩
  | 1, _ => exact ⟨0x62, rfl, by decide⟩
  | 2, _ => exact ⟨0x63, rfl, by decide⟩

/-- R107, R237: a store in flight past the 0x00 of a text leaves it as it is; one to the 0x00 races with it. -/
theorem test_text_raced_bounds :
    (nextState? (exec .msgCreateText { live with racing := [(0x1004, 0xFF)] })).bind (fun t => t.msg? 1) = some rawAbc ∧
    ({ live with racing := [(0x1004, 0xFF)] } : State).textRaced 0x1000 = false ∧
    ({ live with racing := [(0x1003, 0xFF)] } : State).textRaced 0x1000 = true := by decide +kernel

/-- MsgCreateTextAllocationError and MsgCreateBufAllocationError: no slot; no handle left. -/
theorem witness_create_full : ∃ s t : State, s.ctxLive = true ∧ s.cfg.maxMessages ≤ s.messages.length ∧
    t.ctxLive = true ∧ t.nextHandle.toNat = 2 ^ 32 :=
  ⟨{ smallLive with messages := [(1, rawAbc), (2, rawAbc)] }, { live with nextHandle := 0x100000000 }, by decide⟩

/-- MsgCreateTextAllocationError: MAX_RAW_BYTES + 1 = 3 bytes, none 0x00. -/
theorem witness_create_unterminated : ∃ s : State, s.ctxLive = true ∧
    s.raced s.argA (s.cfg.maxRawBytes + 1) = false ∧
    ∀ i ≤ s.cfg.maxRawBytes, ∃ b, s.hostMem.read ((s.argA.toNat + i) % 2 ^ s.cfg.hostAddrBits) = some b ∧ b ≠ 0 := by
  refine ⟨{ live with cfg := { small with maxRawBytes := 2 } }, rfl, rfl, fun i hi => ?_⟩
  match i, hi with
  | 0, _ => exact ⟨0x61, rfl, by decide⟩
  | 1, _ => exact ⟨0x62, rfl, by decide⟩
  | 2, _ => exact ⟨0x63, rfl, by decide⟩

/-- MsgCreateTextStuckAtRefusedAddress and MsgCreateBufStuckAtRefusedAddress: the first byte read. -/
theorem witness_stuck_at_once : ∃ s : State, s.ctxLive = true ∧ s.messages.length < s.cfg.maxMessages ∧
    s.nextHandle.toNat < 2 ^ 32 ∧ s.raced s.argA (0 + 1) = false ∧ 0 ≤ s.cfg.maxRawBytes ∧
    max 1 ((s.argB.toNat + 7) / 8) ≤ s.cfg.maxRawBytes ∧ 0 < (s.argB.toNat + 7) / 8 ∧
    s.hostMem.read ((s.argA.toNat + 0) % 2 ^ s.cfg.hostAddrBits) = none :=
  ⟨{ live with argA := 0x2000 }, rfl, by decide, by decide, rfl, by decide, by decide, by decide, rfl⟩

/-- MsgCreateTextStuckAtRefusedAddress and MsgCreateBufStuckAtRefusedAddress: the last byte of the storage (n = 2 of 3),
after two that are read. -/
theorem witness_stuck_later : ∃ s : State, s.ctxLive = true ∧ s.messages.length < s.cfg.maxMessages ∧
    s.nextHandle.toNat < 2 ^ 32 ∧ s.raced s.argA (2 + 1) = false ∧ 2 ≤ s.cfg.maxRawBytes ∧
    max 1 ((s.argB.toNat + 7) / 8) ≤ s.cfg.maxRawBytes ∧ 2 < (s.argB.toNat + 7) / 8 ∧
    (∀ i < 2, ∃ b, s.hostMem.read ((s.argA.toNat + i) % 2 ^ s.cfg.hostAddrBits) = some b ∧ b ≠ 0) ∧
    s.hostMem.read ((s.argA.toNat + 2) % 2 ^ s.cfg.hostAddrBits) = none := by
  refine ⟨{ smallLive with hostMem := [(0x1000, 0x61), (0x1001, 0x62)] }, rfl, by decide, by decide, rfl, by decide,
    by decide, by decide, fun i hi => ?_, rfl⟩
  match i, hi with
  | 0, _ => exact ⟨0x61, rfl, by decide⟩
  | 1, _ => exact ⟨0x62, rfl, by decide⟩

/-- MsgCreateBufResult: exactly the raw storage, 24 bits of 3 bytes. -/
theorem witness_create_buf : smallLive.ctxLive = true ∧ smallLive.messages.length < smallLive.cfg.maxMessages ∧
    smallLive.nextHandle.toNat < 2 ^ 32 ∧ max 1 ((smallLive.argB.toNat + 7) / 8) ≤ smallLive.cfg.maxRawBytes ∧
    smallLive.raced smallLive.argA ((smallLive.argB.toNat + 7) / 8) = false ∧
    abc.length = (smallLive.argB.toNat + 7) / 8 ∧
    (∀ i, ∀ hi : i < abc.length,
      smallLive.hostMem.read ((smallLive.argA.toNat + i) % 2 ^ smallLive.cfg.hostAddrBits) = some abc[i]) := by
  refine ⟨rfl, by decide, by decide, by decide, rfl, rfl, ?_⟩
  intro i hi
  match i, hi with
  | 0, _ => rfl
  | 1, _ => rfl
  | 2, _ => rfl

/-- MsgCreateBufResult: L = 0, no byte read. -/
theorem witness_create_buf_empty : ∃ s : State, s.ctxLive = true ∧ s.messages.length < s.cfg.maxMessages ∧
    s.nextHandle.toNat < 2 ^ 32 ∧ max 1 ((s.argB.toNat + 7) / 8) ≤ s.cfg.maxRawBytes ∧
    s.raced s.argA ((s.argB.toNat + 7) / 8) = false ∧ ([] : List Byte).length = (s.argB.toNat + 7) / 8 :=
  ⟨{ live with argB := 0, hostMem := [] }, rfl, by decide, by decide, by decide, rfl, rfl⟩

/-- MsgCreateBufAllocationError: one bit more than the raw storage holds, and one state where nothing is short. -/
theorem witness_create_buf_alloc :
    small.maxRawBytes < max 1 ((({ smallLive with argB := 25 } : State).argB.toNat + 7) / 8) ∧
    ¬ (smallLive.cfg.maxMessages ≤ smallLive.messages.length ∨ 2 ^ 32 ≤ smallLive.nextHandle.toNat ∨
      smallLive.cfg.maxRawBytes < max 1 ((smallLive.argB.toNat + 7) / 8)) := by decide

/-- MsgCreateBufRacedBytesAreFree: a store to the last byte of the buffer. -/
theorem witness_create_buf_raced : ∃ s : State, s.ctxLive = true ∧ s.messages.length < s.cfg.maxMessages ∧
    s.nextHandle.toNat < 2 ^ 32 ∧ max 1 ((s.argB.toNat + 7) / 8) ≤ s.cfg.maxRawBytes ∧
    s.raced s.argA ((s.argB.toNat + 7) / 8) = true ∧
    (∀ i < (s.argB.toNat + 7) / 8,
      (s.hostMem.read ((s.argA.toNat + i) % 2 ^ s.cfg.hostAddrBits)).isSome = true) := by
  refine ⟨{ smallLive with racing := [(0x1002, 0xFF)] }, rfl, by decide, by decide, by decide, by decide,
    fun i hi => ?_⟩
  match i, hi with
  | 0, _ => rfl
  | 1, _ => rfl
  | 2, _ => rfl

/-- A store next to the buffer on either side does not race (R237). -/
theorem test_raced_bounds : ({ live with racing := [(0x0FFF, 0xFF), (0x1003, 0xFF)] } : State).raced 0x1000 3 = false ∧
    ({ live with racing := [(0x1000, 0xFF)] } : State).raced 0x1000 3 = true := by decide

/-- MsgDeleteResult, and the frame statements: a live handle. -/
theorem witness_delete : three.ctxLive = true ∧ three.handle ∈ three.order ∧ (1 : Handle) ∈ three.order ∧
    (1 : Handle) ≠ three.handle := by decide

/-- MsgPreprocessResult: a padded buffer that just fits; one that does not; and the two states that are no longer Raw. -/
theorem witness_preprocess :
    (holding rawAbc).ctxLive = true ∧ (holding rawAbc).msg? (holding rawAbc).handle = some rawAbc ∧
    rawAbc.phase = .raw ∧ padBytes rawAbc.bitLength.toNat ≤ small.maxPadBytes ∧
    ({ small with maxPadBytes := 0 } : Config).maxPadBytes < padBytes rawAbc.bitLength.toNat ∧
    (holding paddedAbc).msg? (holding paddedAbc).handle = some paddedAbc ∧ paddedAbc.phase ≠ .raw ∧
    (holding digestedAbc).msg? (holding digestedAbc).handle = some digestedAbc ∧ digestedAbc.phase ≠ .raw := by
  refine ⟨rfl, rfl, rfl, by decide, by decide, rfl, by simp [paddedAbc], rfl, by simp [digestedAbc]⟩

/-- MsgDigestResult, MsgGetPadlenResult, MsgReadPaddedResult, MsgReadDigestResult: a Message in each state, its buffer a
whole number of chunks. -/
theorem witness_phases : rawAbc.phase = .raw ∧ paddedAbc.phase = .preprocessed 512 (pad abc 24) ∧
    digestedAbc.phase = .digested 512 (pad abc 24) abcDigest ∧ (pad abc 24).length = 512 / 8 ∧ 512 % 512 = 0 ∧
    paddedAbc.phase.padded? = some (512, pad abc 24) ∧ digestedAbc.phase.padded? = some (512, pad abc 24) := by
  refine ⟨rfl, rfl, rfl, by decide +kernel, by decide, rfl, rfl⟩

/-- A valid record in each state (R41). -/
theorem witness_valid (c : Config) (h3 : 3 ≤ c.maxRawBytes) (h64 : 64 ≤ c.maxPadBytes) :
    rawAbc.Valid c ∧ paddedAbc.Valid c ∧ digestedAbc.Valid c := by
  have e : (24 : Dword) ≠ 0 := by decide
  have hp : padBytes (24 : Dword).toNat ≤ c.maxPadBytes := h64
  refine ⟨⟨rfl, h3, fun h => absurd rfl h, fun h => absurd h e, fun P buf h => ?_, fun P buf d h => ?_⟩,
    ⟨rfl, h3, fun h => absurd rfl h, fun h => absurd h e, fun P buf h => ?_, fun P buf d h => ?_⟩,
    ⟨rfl, h3, fun h => absurd rfl h, fun h => absurd h e, fun P buf h => ?_, fun P buf d h => ?_⟩⟩
  · cases h
  · cases h
  · injection h with h; injection h with h1 h2; subst h1; subst h2; exact ⟨rfl, rfl, hp⟩
  · cases h
  · injection h with h; injection h with h1 h2; subst h1; subst h2; exact ⟨rfl, rfl, hp⟩
  · injection h with h1 h2 h3; subst h2; subst h3; exact test_digest_abc.symm

/-- The valid record of an empty Message (MsgReadRawResult). -/
theorem witness_valid_empty : emptyMessage.Valid Config.reference ∧ emptyMessage.bitLength = 0 := by
  refine ⟨⟨rfl, by decide, fun h => absurd rfl h, fun _ => rfl, fun P buf h => ?_, fun P buf d h => ?_⟩, rfl⟩ <;> cases h

/-- MsgReadRawResult: the last index and the first past it; MsgReadPaddedResult: 63 and 64; MsgReadDigestResult: 31 and
32. -/
theorem witness_read_bounds : rawAbc.raw.length = max 1 ((rawAbc.bitLength.toNat + 7) / 8) ∧
    (2 : Dword).toNat < rawAbc.raw.length ∧ max 1 ((rawAbc.bitLength.toNat + 7) / 8) ≤ (3 : Dword).toNat ∧
    (63 : Dword).toNat < (pad abc 24).length ∧ (63 : Dword).toNat = 512 / 8 - 1 ∧ 512 / 8 ≤ (64 : Dword).toNat ∧
    (31 : Dword).toNat < 32 ∧ 32 ≤ (32 : Dword).toNat := by decide +kernel

/-- The invariant with a Raw, a Preprocessed and a Digested Message (R41); CtxMsgCountResult, HandlesAreNeverReused,
EveryStepKeepsTheInvariant. -/
theorem witness_inv : three.Inv where
  config := by decide
  ordered := by decide
  capacity := by decide
  issued := by
    intro h hh
    have : h = 1 ∨ h = 2 ∨ h = 3 := by simpa [three, State.order] using hh
    rcases this with rfl | rfl | rfl <;> decide
  counter := by decide
  noContext := fun h => absurd h (by decide)
  records := by
    have v := witness_valid Config.reference (by decide) (by decide)
    intro p hp
    simp only [three, List.mem_cons, List.not_mem_nil, or_false] at hp
    rcases hp with rfl | rfl | rfl
    · exact v.1
    · exact v.2.1
    · exact v.2.2
  status := ⟨.ok, by decide⟩
  memory := by decide

/-- MsgGetBitlenResult, its clause on a text: "abc" stored beside three Messages. -/
theorem witness_text_bitlen : ∃ s t : State, s.Inv ∧ textAt s abc ∧ exec .msgCreateText s = .next t ∧ t.err = 0 := by
  obtain ⟨t, h, ht⟩ := next_with (exec .msgCreateText { three with argA := 0x1000 }) (fun t => t.err = 0)
    (by decide +kernel)
  refine ⟨{ three with argA := 0x1000 }, t, ?_, ⟨by decide, by decide, by decide, ?_, rfl⟩, h, of_decide_eq_true ht⟩
  · exact ⟨witness_inv.config, witness_inv.ordered, witness_inv.capacity, witness_inv.issued, witness_inv.counter,
      witness_inv.noContext, witness_inv.records, witness_inv.status, witness_inv.memory⟩
  · intro i hi
    match i, hi with
    | 0, _ => rfl
    | 1, _ => rfl
    | 2, _ => rfl

/-- The invariant can fail: a handle that was never issued, and a STATUS with a reserved bit set. -/
theorem test_inv_refuses : ¬ ({ three with nextHandle := 3 } : State).Inv ∧
    ¬ ({ live with status := 0x110 } : State).Inv := by
  refine ⟨fun h => absurd (h.issued 3 (by decide)).2 (by decide), fun h => ?_⟩
  obtain ⟨c, hc⟩ := h.status
  have := (statusWord_fields c true).2.1
  rw [show live.ctxLive = true from rfl] at hc
  rw [← hc] at this
  exact absurd this (by decide)

/-- ErrorsChangeNothingElse. -/
theorem witness_error : ∃ t, runWord 0x0D (holding rawAbc) = .next t ∧ t.err ≠ 0 := ⟨_, rfl, by decide⟩

/-- StatusAfterEveryCommand, CommandsNeverWriteTheHostsSide, HandlesAreNeverReused: a command that issues a handle, on a
state that meets the invariant. -/
theorem witness_command : ∃ t, runWord 0x04 { three with argB := 0 } = .next t ∧ t.err = 0 ∧ t.ctxLive = true :=
  ⟨_, rfl, by decide⟩

/-- ReadBackChangesOnlyStatusAndResult. -/
theorem witness_read_back : Instr.msgReadDigest ∈ [Instr.msgGetState, .msgGetBitlen, .msgGetPadlen, .msgReadRaw,
    .msgReadPadded, .msgReadDigest, .ctxMsgCount, .ctxMsgAt] := by decide

/-- OtherMessagesAreUntouched: MSG_DELETE of Message 2, seen from Message 3. -/
theorem witness_other_message : ∃ t, exec .msgDelete three = .next t ∧ (3 : Handle) ∈ three.order ∧
    (3 : Handle) ≠ three.handle ∧ Instr.msgDelete ≠ .ctxCreate ∧ Instr.msgDelete ≠ .ctxDestroy :=
  ⟨_, rfl, by decide⟩

/-- MessageLifecycleIsForwardOnly and ParametersNeverChange: a step that preprocesses Message 1. -/
theorem witness_lifecycle : ∃ t, step { holding rawAbc with bus := [.write 0 0 32 0x06] } = .next t ∧
    (holding rawAbc).msg? 1 = some rawAbc ∧ t.msg? 1 = some paddedAbc := by
  obtain ⟨t, h, ht⟩ := next_with (step { holding rawAbc with bus := [.write 0 0 32 0x06] })
    (fun t => t.msg? 1 = some paddedAbc) (by decide +kernel)
  exact ⟨t, h, rfl, of_decide_eq_true ht⟩

/-- PreprocessAndDigestAreIdempotent. -/
theorem witness_idempotent : ∃ t, exec .msgPreprocess (holding rawAbc) = .next t ∧ t.err = 0 := by
  obtain ⟨t, h, ht⟩ := next_with (exec .msgPreprocess (holding rawAbc)) (fun t => t.err = 0) (by decide +kernel)
  exact ⟨t, h, of_decide_eq_true ht⟩

/-- MessageOrderDoesNotMatter: MSG_DIGEST of Message 2 and MSG_PREPROCESS of Message 1, in both orders. -/
theorem witness_order : ∃ a b a' b', exec .msgDigest { three with handle := 2 } = .next a ∧
    exec .msgPreprocess { a with handle := 1 } = .next b ∧
    exec .msgPreprocess { three with handle := 1 } = .next a' ∧
    exec .msgDigest { a' with handle := 2 } = .next b' ∧ (2 : Handle) ≠ 1 := by
  obtain ⟨a, ha, ha'⟩ := next_with (exec .msgDigest { three with handle := 2 })
    (fun a => (nextState? (exec .msgPreprocess { a with handle := 1 })).any fun _ => true) (by decide +kernel)
  obtain ⟨b, hb, _⟩ := next_with _ _ ha'
  obtain ⟨c, hc, hc'⟩ := next_with (exec .msgPreprocess { three with handle := 1 })
    (fun a => (nextState? (exec .msgDigest { a with handle := 2 })).any fun _ => true) (by decide +kernel)
  obtain ⟨d, hd, _⟩ := next_with _ _ hc'
  exact ⟨a, b, c, d, ha, hb, hc, hd, by decide⟩

/-- RawStoreKeepsExactlyTheMessageBits: a last byte with one bit of the message, and an empty message. -/
theorem witness_raw_store : (9 + 7) / 8 ≤ [0xA5#8, 0xFF].length ∧ (0 + 7) / 8 ≤ ([] : List Byte).length := by decide

/-- PadIsContentOneZerosLength: nine bits of A5 80, the first bit past them clear. -/
theorem witness_pad : 9 < 2 ^ 64 ∧ [0xA5#8, 0x80].length = rawBytes 9 ∧
    ∀ i, 9 ≤ i → messageBit [0xA5#8, 0x80] i = false := by
  refine ⟨by decide, rfl, fun i hi => ?_⟩
  by_cases h : i < 16
  · have : ∀ k < 16, 9 ≤ k → messageBit [0xA5#8, 0x80] k = false := by decide
    exact this i h hi
  · have h2 : 2 ≤ i / 8 := by omega
    obtain ⟨n, hn⟩ : ∃ n, i / 8 = n + 2 := ⟨i / 8 - 2, by omega⟩
    simp [messageBit, hn]

/-- ScheduleWordsAreTheRules, and ChunksAreASequentialReduction with one chunk. -/
theorem witness_chunk : (pad abc 24).length = 64 ∧ (pad abc 24).length = 64 * 1 ∧ (16 : Nat) ≤ 63 := by decide +kernel

/-- The addresses of the register statements: the first and the last offset of the block, one event at each. -/
theorem witness_block : 0xFF < 0x100 ∧ (0xFF : Dword).toNat = State.reset.cfg.devBase.toNat + 0xFF ∧
    (0x00 : Dword).toNat = State.reset.cfg.devBase.toNat + 0x00 ∧
    (({ three with bus := [.read 0 0xFF 32] } : State).bus = .write 0 0xFF 32 0 :: [] ∨
      ({ three with bus := [.read 0 0xFF 32] } : State).bus = .read 0 0xFF 32 :: []) := by
  refine ⟨by decide, by decide, by decide, .inr rfl⟩

/-- The premises of the register statements on the access: both widths at the ends of their ranges, and the accesses at
0x00 and 0x18 that are not defined. -/
theorem witness_defined_access : (32 = 32 ∧ 0xFC % 4 = 0) ∧ (64 = 64 ∧ 0xF8 % 8 = 0 ∧ 0xF8 ≠ 0x00 ∧ 0xF8 ≠ 0x18) ∧
    ¬ ((64 = 32 ∧ 0x18 % 4 = 0) ∨ (64 = 64 ∧ 0x18 % 8 = 0 ∧ 0x18 ≠ 0x00 ∧ 0x18 ≠ 0x18)) ∧
    ¬ ((32 = 32 ∧ 0xFF % 4 = 0) ∨ (32 = 64 ∧ 0xFF % 8 = 0 ∧ 0xFF ≠ 0x00 ∧ 0xFF ≠ 0x18)) := by decide

/-- RegisterReadsReturnTheRegister: RESULT whole. -/
theorem witness_read : 0x20 < 0x100 ∧ (0x20 : Dword).toNat = three.cfg.devBase.toNat + 0x20 ∧
    ({ three with bus := [.read 0 0x20 64] } : State).bus = .read 0 0x20 64 :: [] ∧
    ({ three with bus := [] } : State).intrudedOn 0 = none ∧
    ((64 = 32 ∧ 0x20 % 4 = 0) ∨ (64 = 64 ∧ 0x20 % 8 = 0 ∧ 0x20 ≠ 0x00 ∧ 0x20 ≠ 0x18)) := by
  refine ⟨by decide, by decide, rfl, rfl, by decide⟩

/-- RegisterWritesReplaceTheAddressedBits: the upper half of ARG_A. -/
theorem witness_write : 0x0C < 0x100 ∧ 0x0C ≠ 0x00 ∧ (0x0C : Dword).toNat = three.cfg.devBase.toNat + 0x0C ∧
    ({ three with bus := [.write 0 0x0C 32 5] } : State).bus = .write 0 0x0C 32 5 :: [] ∧
    ({ three with bus := [] } : State).intrudedOn 0 = none ∧
    ((32 = 32 ∧ 0x0C % 4 = 0) ∨ (32 = 64 ∧ 0x0C % 8 = 0 ∧ 0x0C ≠ 0x18)) := by
  refine ⟨by decide, by decide, by decide, rfl, rfl, by decide⟩

/-- InterleavedAccessesAreRefused: between an operand write and the CMD write, with a host store on the way. -/
theorem witness_interleaved_operands : ∃ (s : State) (x : Session) (e : HostEvent),
    0x08 < 0x100 ∧ (0x08 : Dword).toNat = s.cfg.devBase.toNat + 0x08 ∧
    ((64 = 32 ∧ 0x08 % 4 = 0) ∨ (64 = 64 ∧ 0x08 % 8 = 0 ∧ 0x08 ≠ 0x00 ∧ 0x08 ≠ 0x18)) ∧
    e = .write 1 0x08 64 0 ∧ s.session = some x ∧ x.agent = 0 ∧ (1 : Nat) ≠ 0 ∧
    (∀ a ∈ [HostEvent.store 0x1000 0x7A], a ≠ .reset) ∧ s.cfg.devBase.toNat % 0x100 = 0 ∧
    x.operandsWritten = true ∧
    s.bus = e :: [HostEvent.store 0x1000 0x7A] ++ .write 0 s.cfg.devBase 32 0x07 :: [] :=
  ⟨{ three with
      bus := [.write 1 0x08 64 0, .store 0x1000 0x7A, .write 0 0 32 0x07]
      session := some ⟨0, true, false⟩ }, ⟨0, true, false⟩, _,
    by decide, by decide, by decide, rfl, rfl, rfl, by decide, by decide, by decide, rfl, rfl⟩

/-- InterleavedAccessesAreRefused: between the CMD write and the read of STATUS, nothing else on the way; and the read of
RESULT's upper half, with an operand write of the owner on the way. -/
theorem witness_interleaved_outcome : ∃ (s t : State) (x : Session) (e : HostEvent),
    0x20 < 0x100 ∧ (0x20 : Dword).toNat = s.cfg.devBase.toNat + 0x20 ∧
    ((64 = 32 ∧ 0x20 % 4 = 0) ∨ (64 = 64 ∧ 0x20 % 8 = 0 ∧ 0x20 ≠ 0x00 ∧ 0x20 ≠ 0x18)) ∧
    e = .read 1 0x20 64 ∧ s.session = some x ∧ t.session = some x ∧ x.agent = 0 ∧ (1 : Nat) ≠ 0 ∧
    s.cfg.devBase.toNat % 0x100 = 0 ∧ x.issued = true ∧
    s.bus = e :: [] ++ .read 0 (s.cfg.devBase + BitVec.ofNat 64 0x04) 32 :: [] ∧
    (0x08 : Dword) ≠ t.cfg.devBase ∧
    t.bus = e :: [.write 0 0x08 64 0] ++ .read 0 (t.cfg.devBase + BitVec.ofNat 64 0x24) 32 :: [] :=
  ⟨{ three with bus := [.read 1 0x20 64, .read 0 4 32], session := some ⟨0, false, true⟩ },
    { three with bus := [.read 1 0x20 64, .write 0 0x08 64 0, .read 0 0x24 32], session := some ⟨0, false, true⟩ },
    ⟨0, false, true⟩, _, by decide, by decide, by decide, rfl, rfl, rfl, rfl, by decide, by decide, rfl, rfl,
    by decide, rfl⟩

/-- R236: the refusal while RESULT is still to be read, at each of its accesses; none once the owner writes CMD first. -/
theorem test_interleaved_result :
    ((([(0x20, 32), (0x20, 64), (0x24, 32)] : List (Dword × Nat)).map fun p =>
      (({ three with bus := [.read 0 p.1 p.2], session := some ⟨0, false, true⟩ } : State).intrudedOn 1)) =
        [some 0, some 0, some 0]) ∧
    ({ three with bus := [.write 0 0 32 8, .read 0 0x20 64], session := some ⟨0, false, true⟩ } : State).intrudedOn 1 =
      none := by decide

/-- RegisterReadsReturnTheRegister and RegisterWritesReplaceTheAddressedBits, their clauses on an access outside the block:
just past its end, and ending just below its start. -/
theorem witness_outside : outsideBlock Config.reference 0x100 64 ∧ outsideBlock Config.reference 0xFFFFFFFFFFFFFFF8 64 ∧
    outsideBlock { Config.reference with devBase := 0x100 } 0xF8 64 ∧
    ({ three with bus := [.read 0 0x100 64] } : State).bus = .read 0 0x100 64 :: [] ∧
    ({ three with bus := [.write 0 0x100 64 1] } : State).bus = .write 0 0x100 64 1 :: [] := by
  refine ⟨.inr (by decide), .inr (by decide), .inl (by decide), rfl, rfl⟩

/-- ASingleAgentIsNeverRefused and PseudoInstructionsAreTheirCommands: agent 0 deletes Message 2. -/
theorem witness_single_agent : ∃ s : State,
    s.bus = (Pseudo.msgDelete 2).expand.map (fun st => st.event s.cfg 0) ++ [] ∧
    (∀ a d w u, HostEvent.write a d w u ∈ s.bus → a = 0) ∧ (∀ a d w, HostEvent.read a d w ∈ s.bus → a = 0) ∧
    (∀ x, s.session = some x → x.agent = 0) ∧ s.cfg.devBase.toNat % 0x100 = 0 := by
  refine ⟨{ three with bus := [.write 0 0x18 32 2, .write 0 0x00 32 5] }, rfl, ?_, ?_, ?_, by decide⟩
  · intro a d w u h
    simp only [List.mem_cons, List.not_mem_nil, or_false, HostEvent.write.injEq] at h
    rcases h with h | h <;> exact h.1
  · intro a d w h
    simp at h
  · intro x h
    cases h

/-- MsgGetPadlenResult: a padded length that 64 bits do not hold. -/
theorem witness_padlen_beyond : ∃ m : Message, m.phase = .preprocessed (2 ^ 64) [] ∧ ¬ (2 ^ 64 < 2 ^ 64) ∧
    2 ^ 64 - 512 < 2 ^ 64 := ⟨⟨0, [0], .preprocessed (2 ^ 64) []⟩, rfl, by decide, by decide⟩

/-- HostStoresAreSeen, its clauses on stores in flight: two to one address, one to another. -/
theorem witness_landing : ∃ s : State, s.racing = [(5, 1), (6, 2)] ++ (5, 3) :: [] ∧
    (∀ p ∈ ([] : List Host.Cell), p.1 ≠ 5) ∧ (∀ p ∈ s.racing, p.1 ≠ 7) ∧
    ({ s with bus := [.racingStore 8 4] } : State).bus = .racingStore 8 4 :: [] :=
  ⟨{ live with racing := [(5, 1), (6, 2), (5, 3)] }, rfl, by decide, by decide, rfl⟩

/-- R237, R62: the stores in flight land in their order. -/
theorem test_landing : ({ live with racing := [(0x1001, 1), (0x1001, 2)] } : State).landStores.hostMem =
    [(0x1000, 0x61), (0x1001, 2), (0x1002, 0x63), (0x1003, 0x00)] := by decide

/-- HostStoresAreSeen, ResetValues. -/
theorem witness_events : ({ three with bus := [.store 0x1001 0x7A] } : State).bus = .store 0x1001 0x7A :: [] ∧
    ({ three with bus := [.reset] } : State).bus = .reset :: [] := ⟨rfl, rfl⟩

/-- P1 from R78: the expansion of msg_read_digest, as the bus accesses of P1 lines 6, 17 and 18. -/
theorem test_expansion : (Pseudo.msgReadDigest 1 0).expand.map (fun st => st.event Config.reference 0) =
    [.write 0 0x18 32 1, .write 0 0x08 64 0, .write 0 0x00 32 0x0D] := by decide

/-- R57, R77: a launch memory admits the bytes of its directives and no other. -/
theorem test_launch_memory : launchMemory [.mem 0x2000 [0xA5, 0xFF], .text 0x1000 ['h', 'i']] =
    [(0x1000, 0x68), (0x1001, 0x69), (0x1002, 0x00), (0x2000, 0xA5), (0x2001, 0xFF)] := by decide

end Sys2Proof.Tests
end

section
/-! PROOFS. What no command writes, and the parameters of spec/00_scope.md R9 over every step. -/

namespace Sys2Proof.Machine

/-- The part of the state no command writes: the parameters (R9), the operand registers (R23 to R25), host memory (R55)
and the host's side of the bus. -/
structure State.SameHostSide (s t : State) : Prop where
  cfg : t.cfg = s.cfg
  argA : t.argA = s.argA
  argB : t.argB = s.argB
  handle : t.handle = s.handle
  hostMem : t.hostMem = s.hostMem
  racing : t.racing = s.racing
  bus : t.bus = s.bus
  session : t.session = s.session
  observed : t.observed = s.observed

/-- Completion writes STATUS and RESULT alone (R200). -/
theorem State.sameHostSide_complete (s : State) (e : ErrCode) (r : Dword) : s.SameHostSide (s.complete e r) := by
  constructor <;> rfl

/-- The registering end of a create command leaves the host's side alone. -/
theorem State.sameHostSide_register (s : State) (raced : Bool) (n : Nat) (raw : List Byte) (L : Dword) (e : ErrCode)
    (r : Dword) : s.SameHostSide (((s.spendFree raced n).register raw L).complete e r) := by
  constructor <;> simp

/-- The frame of every command (R23 to R25, R55): case by case along what each command can answer. -/
theorem exec_sameHostSide {i : Instr} {s t : State} (h : exec i s = .next t) : s.SameHostSide t := by
  have readBack (hi : i ∈ [Instr.msgGetState, .msgGetBitlen, .msgGetPadlen, .msgReadRaw, .msgReadPadded,
      .msgReadDigest, .ctxMsgCount, .ctxMsgAt]) : s.SameHostSide t := by
    obtain ⟨e, r, hr, -⟩ := readBack_next i s hi
    cases hr.symm.trans h
    exact s.sameHostSide_complete e r
  cases i with
  | ctxCreate => obtain ⟨-, rfl⟩ | ⟨-, rfl⟩ := execCtxCreate_next h <;> constructor <;> rfl
  | ctxDestroy => obtain ⟨-, rfl⟩ | ⟨-, rfl⟩ := execCtxDestroy_next h <;> constructor <;> rfl
  | msgCreateText =>
    obtain ⟨e, n, -, rfl⟩ | ⟨bytes, n, -, -, -, -, rfl⟩ := execMsgCreateText_next h
    · constructor <;> simp
    · exact s.sameHostSide_register ..
  | msgCreateBuf =>
    obtain ⟨e, -, rfl⟩ | ⟨src, -, -, -, rfl⟩ := execMsgCreateBuf_next h
    · exact s.sameHostSide_complete e 0
    · exact s.sameHostSide_register ..
  | msgDelete => obtain ⟨e, -, rfl⟩ | ⟨-, -, rfl⟩ := execMsgDelete_next h <;> constructor <;> rfl
  | msgPreprocess => obtain ⟨e, rfl⟩ | ⟨m, -, -, -, -, rfl⟩ := execMsgPreprocess_next h <;> constructor <;> rfl
  | msgDigest => obtain ⟨e, rfl⟩ | ⟨m, P, buf, -, -, -, rfl⟩ := execMsgDigest_next h <;> constructor <;> rfl
  | msgGetState | msgGetBitlen | msgGetPadlen | msgReadRaw | msgReadPadded | msgReadDigest | ctxMsgCount | ctxMsgAt =>
    exact readBack (by decide)

/-- The frame of every CMD word, legal or not (R213). -/
theorem runWord_sameHostSide {v : Word} {s t : State} (h : runWord v s = .next t) : s.SameHostSide t := by
  obtain ⟨i, -, hi⟩ | ⟨-, hill⟩ := runWord_cases v s
  · exact exec_sameHostSide (hi ▸ h)
  · cases hill.symm.trans h
    exact s.sameHostSide_complete .illegal 0

/-- Settles O56, by cases on what a step can do: an idle step and a host event write no parameter, and the frame of a
command holds them. -/
theorem parametersNeverChange : Obligations.ParametersNeverChange := by
  unfold Obligations.ParametersNeverChange
  intro s t h
  obtain ⟨-, rfl⟩ | ⟨rest, -, rfl⟩ | ⟨rest, addr, b, -, rfl⟩ | ⟨rest, addr, b, -, rfl⟩ | ⟨e, rest, obs, -, rfl⟩ |
    ⟨e, rest, ses, r, p, v, -, rfl⟩ | ⟨e, rest, ses, v, u, -, hu, rfl⟩ := step_next h
  · rfl
  · exact State.resetBlock_cfg _
  · rfl
  · rfl
  · rfl
  · exact State.writeReg_cfg _ r p v
  · exact (runWord_sameHostSide hu).cfg

end Sys2Proof.Machine
end

section
/-! PROOFS. A chunk's result depends on the buffer and the running hash alone (R37, R152), so `SHA256Digest` is the engine's
result from any register contents. -/

namespace Sys2Proof.Machine

/-- Two engines whose words agree below 64 hold the same schedule. -/
theorem Engine.W_eq_of_w {e f : Engine} (h : ∀ k < 64, e.w k = f.w k) : e.W = f.W := by
  refine Vector.ext fun k hk => ?_
  simpa [Engine.w, hk] using h k hk

/-- Each word the expansion has written, or found below `W[16]`, is a function of the first 16 words (R148). -/
theorem Engine.expandSchedule_w_congr {e f : Engine} (h : ∀ k < 16, e.w k = f.w k) (n : Nat) (hn : 16 + n ≤ 64) :
    ∀ k < 16 + n, (e.expandSchedule n).w k = (f.expandSchedule n).w k := by
  induction n with
  | zero => exact h
  | succ n ih =>
    intro k hk
    have ih := ih (by omega)
    simp only [Engine.expandSchedule, Engine.expandWord]
    rw [Engine.setW_w _ _ _ _ (by omega), Engine.setW_w _ _ _ _ (by omega), ih (16 + n - 2) (by omega),
      ih (16 + n - 7) (by omega), ih (16 + n - 15) (by omega), ih (16 + n - 16) (by omega)]
    split
    · rfl
    · exact ih k (by omega)

/-- The schedule is a function of the chunk alone (R147, R148). -/
theorem Engine.schedule_W_congr (B : List Byte) (e f : Engine) : (e.schedule B).W = (f.schedule B).W := by
  unfold Engine.schedule
  refine Engine.W_eq_of_w (Engine.expandSchedule_w_congr (fun k hk => ?_) 48 (by omega))
  rw [Engine.loadSchedule_w _ _ _ _ (by omega), Engine.loadSchedule_w _ _ _ _ (by omega), if_pos hk, if_pos hk]

/-- The registers a round reads or leaves; the others (T1, T2 and the round counter) it writes first. -/
structure Engine.SameRoundInput (e f : Engine) : Prop where
  H : e.H = f.H
  W : e.W = f.W
  c : e.c = f.c
  work : e.work = f.work

/-- A round makes engines equal that agree on what it reads (R149). -/
theorem Engine.round_congr {e f : Engine} (h : e.SameRoundInput f) (t : Nat) : e.round t = f.round t := by
  simp only [Engine.round, Engine.w, h.H, h.W, h.c, h.work]

/-- One round or more makes engines equal that agree on what a round reads. -/
theorem Engine.rounds_succ_congr {e f : Engine} (h : e.SameRoundInput f) (n : Nat) :
    e.rounds (n + 1) = f.rounds (n + 1) := by
  induction n with
  | zero => exact Engine.round_congr h 0
  | succ n ih => exact congrArg (Engine.round · (n + 1)) ih

/-- A chunk leaves the same registers from every engine with the same running hash (R37, R150). -/
theorem Engine.chunk_congr (buf : List Byte) (c : Nat) {e f : Engine} (h : e.H = f.H) :
    e.chunk buf c = f.chunk buf c := by
  have loaded : (({ e with c := c } : Engine).schedule (chunkOf buf c)).loadWorking.SameRoundInput
      (({ f with c := c } : Engine).schedule (chunkOf buf c)).loadWorking := by
    constructor
    case W => exact Engine.schedule_W_congr ..
    all_goals simp [Engine.loadWorking, h]
  unfold Engine.chunk Engine.compress
  rw [Engine.rounds_succ_congr loaded 63]

/-- The engine starts from the H0 ROM, whatever its registers held (R39, R152). -/
@[simp] theorem Engine.run_zero_H (buf : List Byte) (e : Engine) : (e.run buf 0).H = romH0 := rfl

/-- One chunk more (R146, R152). -/
theorem Engine.run_succ (buf : List Byte) (n : Nat) (e : Engine) :
    e.run buf (n + 1) = (e.run buf n).chunk buf n := rfl

/-- The running hash after any number of chunks does not depend on what the registers held (R152). -/
theorem Engine.run_H_congr (buf : List Byte) (n : Nat) (e f : Engine) : (e.run buf n).H = (f.run buf n).H := by
  induction n with
  | zero => rw [Engine.run_zero_H, Engine.run_zero_H]
  | succ n ih => rw [Engine.run_succ, Engine.run_succ, Engine.chunk_congr buf n ih]

/-- `SHA256Digest` is the serialised hash of a run of all chunks from any engine contents (R151, R152). -/
theorem sha256Digest_eq_run (buf : List Byte) (e : Engine) :
    sha256Digest buf = serialise (e.run buf (buf.length / 64)).H := by
  unfold sha256Digest
  rw [Engine.run_H_congr buf _ Engine.atReset e]

/-- Settles O60: the two ROMs evaluate to the words of R38 and R39, and the digest is the run of any engine. -/
theorem romWordsAndTheDigestFromThem : Obligations.RomWordsAndTheDigestFromThem := by
  unfold Obligations.RomWordsAndTheDigestFromThem
  exact ⟨by decide, fun buf e => ⟨e.run_zero_H buf, e.run_zero_H buf⟩, sha256Digest_eq_run⟩

end Sys2Proof.Machine
end

section
/-! PROOFS. What keeps a message record valid (R31, R41): `RawStore`, MSG_PREPROCESS and MSG_DIGEST; and what each of them
leaves of a record. -/

namespace Sys2Proof.Machine

/-- The mask of `RawStore` clears the `8 - r` low bits of the last byte (R101). -/
theorem rawMask_clears (b : Byte) {r : Nat} (hr : r < 8) : b &&& (0xFF#8 <<< (8 - r)) &&& (0xFF#8 >>> r) = 0 := by
  have disjoint : ∀ r < 8, (0xFF#8 <<< (8 - r)) &&& (0xFF#8 >>> r) = 0#8 := by decide
  rw [BitVec.and_assoc, disjoint r hr, BitVec.and_zero]
  rfl

/-- The unused low bits of the last byte of `RawStore` are 0 (R41 item 2). -/
theorem rawStore_masked (src : List Byte) (L : Nat) (hsrc : (L + 7) / 8 ≤ src.length) (hL : L % 8 ≠ 0) :
    (rawStore src L).getD ((L + 7) / 8 - 1) 0 &&& (0xFF#8 >>> (L % 8)) = 0 := by
  have last : (L + 7) / 8 - 1 < (src.take ((L + 7) / 8)).length := by rw [List.length_take]; omega
  rw [rawStore, if_neg (by rintro rfl; exact hL rfl)]
  simp only [if_neg hL]
  rw [List.getD_eq_getElem?_getD, List.getElem?_set_self last]
  exact rawMask_clears _ (Nat.mod_lt L (by omega))

/-- A Raw record made by `RawStore` from enough bytes is valid where it fits the slot (R101, R103). -/
theorem Message.valid_rawStore {cfg : Config} {src : List Byte} {L : Dword} (hsrc : (L.toNat + 7) / 8 ≤ src.length)
    (hfit : rawBytes L.toNat ≤ cfg.maxRawBytes) : Message.Valid cfg ⟨L, rawStore src L.toNat, .raw⟩ where
  rawLength := rawStore_length src L.toNat hsrc
  rawFits := hfit
  rawMasked := rawStore_masked src L.toNat hsrc
  rawEmpty := by rintro rfl; rfl
  padded := by rintro _ _ ⟨⟩
  digest := by rintro _ _ _ ⟨⟩

/-- The record of a text that fits the slot is valid: its bit length is not truncated (R107, R124, log entry 6). -/
theorem Message.valid_text {cfg : Config} (hcfg : cfg.wf = true) {bytes : List Byte}
    (hfit : bytes.length ≤ cfg.maxRawBytes) :
    Message.Valid cfg ⟨BitVec.ofNat 64 (8 * bytes.length), rawStore bytes (8 * bytes.length), .raw⟩ := by
  simp only [Config.wf, Bool.and_eq_true, decide_eq_true_eq] at hcfg
  obtain ⟨⟨⟨_, hone⟩, _⟩, hbound⟩ := hcfg
  have hL : (BitVec.ofNat 64 (8 * bytes.length)).toNat = 8 * bytes.length := by
    rw [BitVec.toNat_ofNat, Nat.mod_eq_of_lt (by omega)]
  have valid := Message.valid_rawStore (cfg := cfg) (src := bytes) (L := BitVec.ofNat 64 (8 * bytes.length))
    (by omega) (by unfold rawBytes; omega)
  rwa [hL] at valid

/-- What MSG_PREPROCESS and MSG_DIGEST make of a record they advance (R123, R153). -/
inductive Message.Advances (cfg : Config) (m : Message) : Message → Prop
  | preprocess (hraw : m.phase = .raw) (hfit : padBytes m.bitLength.toNat ≤ cfg.maxPadBytes) :
    Advances cfg m
      ⟨m.bitLength, m.raw, .preprocessed (padLen m.bitLength.toNat) (pad m.raw m.bitLength.toNat)⟩
  | digest (P : Nat) (buf : List Byte) (e : Engine) (hpre : m.phase = .preprocessed P buf) :
    Advances cfg m ⟨m.bitLength, m.raw, .digested P buf (serialise (e.run buf (P / 512)).H)⟩

/-- An advanced record is valid when the record was: its padded buffer is `Pad(raw, L)`, so the engine ran over all the
chunks of it, and its digest is `SHA256Digest(padded)` (R41 items 3 and 4). -/
theorem Message.Advances.valid {cfg : Config} {m m' : Message} (h : m.Advances cfg m') (hm : m.Valid cfg) :
    m'.Valid cfg := by
  cases h with
  | preprocess hraw hfit =>
    exact { hm with padded := by rintro _ _ ⟨⟩; exact ⟨rfl, rfl, hfit⟩, digest := by rintro _ _ _ ⟨⟩ }
  | digest P buf e hpre =>
    obtain ⟨hP, hbuf, hfit⟩ := hm.padded P buf (by rw [hpre]; rfl)
    have chunks : P / 512 = buf.length / 64 := by
      rw [hbuf, pad_length _ _ hm.rawLength, hP]; unfold padBytes; omega
    refine { hm with padded := by rintro _ _ ⟨⟩; exact ⟨hP, hbuf, hfit⟩, digest := ?_ }
    rintro _ _ _ ⟨⟩
    rw [chunks, sha256Digest_eq_run buf e]

/-- From `m` to `m'` the state moves forward by at most one, and no field changes that was valid (R41 items 1 and 5). -/
def Message.Forward (m m' : Message) : Prop :=
  m.phase.code.toNat ≤ m'.phase.code.toNat ∧ m'.phase.code.toNat ≤ m.phase.code.toNat + 1 ∧
  m'.bitLength = m.bitLength ∧ m'.raw = m.raw ∧
  (m.phase.padded? = none ∨ m'.phase.padded? = m.phase.padded?) ∧
  (m.phase.digest? = none ∨ m'.phase.digest? = m.phase.digest?)

theorem Message.Forward.refl (m : Message) : m.Forward m :=
  ⟨le_refl _, Nat.le_succ _, rfl, rfl, .inr rfl, .inr rfl⟩

/-- MSG_PREPROCESS leads from Raw to Preprocessed, MSG_DIGEST from Preprocessed to Digested. -/
theorem Message.Advances.forward {cfg : Config} {m m' : Message} (h : m.Advances cfg m') : m.Forward m' := by
  cases h with
  | preprocess hraw _ => simp [Message.Forward, hraw, Phase.code, Phase.padded?, Phase.digest?]
  | digest P buf e hpre => simp [Message.Forward, hpre, Phase.code, Phase.padded?, Phase.digest?]

end Sys2Proof.Machine
end

section
/-! PROOFS. What a CMD word can do to the block: one of five changes of the Context and its collection, then completion. -/

namespace Sys2Proof.Machine

/-- The state `u` a command completes from, and the RESULT `r` it completes with. -/
inductive CommandEffect (s : State) : (u : State) → (r : Dword) → Prop
  /-- Nothing but free values are spent: an error, a read-back, a repeated command. -/
  | kept (raced : Bool) (n : Nat) (r : Dword) : CommandEffect s (s.spendFree raced n) r
  /-- A Context is created or destroyed; either way no Message is left. -/
  | emptied (live : Bool) : CommandEffect s { s with ctxLive := live, messages := [] } 0
  /-- A Raw Message is registered, and its handle returned. -/
  | registered (raced : Bool) (n : Nat) (raw : List Byte) (L : Dword) (hlive : s.ctxLive = true)
      (hslot : s.slotFree = true) (hleft : s.handleLeft = true)
      (hvalid : s.cfg.wf = true → Message.Valid s.cfg ⟨L, raw, .raw⟩) :
    CommandEffect s ((s.spendFree raced n).register raw L) (s.newHandle.setWidth 64)
  /-- The Message HANDLE names is deleted. -/
  | dropped : CommandEffect s (s.dropMsg s.handle) 0
  /-- The Message HANDLE names is preprocessed or digested. -/
  | advanced (engine : Engine) (m m' : Message) (hm : s.msg? s.handle = some m) (hadv : m.Advances s.cfg m') :
    CommandEffect s (({ s with engine := engine } : State).setMsg s.handle m') 0

/-- Completion of the state a command started in. -/
theorem CommandEffect.completed (s : State) (e : ErrCode) (r : Dword) :
    ∃ u e' r', CommandEffect s u r' ∧ s.complete e r = u.complete e' r' :=
  ⟨s, e, r, .kept false 0 r, rfl⟩

/-- What a command can answer, case by case along its own inversion lemma. -/
theorem exec_effect {i : Instr} {s t : State} (h : exec i s = .next t) :
    ∃ u e r, CommandEffect s u r ∧ t = u.complete e r := by
  have readBack (hi : i ∈ [Instr.msgGetState, .msgGetBitlen, .msgGetPadlen, .msgReadRaw, .msgReadPadded,
      .msgReadDigest, .ctxMsgCount, .ctxMsgAt]) : ∃ u e r, CommandEffect s u r ∧ t = u.complete e r := by
    obtain ⟨e, r, hr, -⟩ := readBack_next i s hi
    cases hr.symm.trans h
    exact CommandEffect.completed s e r
  cases i with
  | ctxCreate =>
    obtain ⟨-, rfl⟩ | ⟨-, rfl⟩ := execCtxCreate_next h
    · exact CommandEffect.completed s .alloc 0
    · exact ⟨_, _, _, .emptied true, rfl⟩
  | ctxDestroy =>
    obtain ⟨-, rfl⟩ | ⟨-, rfl⟩ := execCtxDestroy_next h
    · exact ⟨_, _, _, .emptied false, rfl⟩
    · exact CommandEffect.completed s .noContext 0
  | msgCreateText =>
    obtain ⟨e, n, -, rfl⟩ | ⟨bytes, n, hlive, hslot, hleft, hlen, rfl⟩ := execMsgCreateText_next h
    · exact ⟨_, _, _, .kept _ n 0, rfl⟩
    · exact ⟨_, _, _, .registered _ n _ _ hlive hslot hleft fun hcfg => Message.valid_text hcfg hlen, rfl⟩
  | msgCreateBuf =>
    obtain ⟨e, -, rfl⟩ | ⟨src, hlive, hcan, hsrc, rfl⟩ := execMsgCreateBuf_next h
    · exact CommandEffect.completed s e 0
    · simp only [State.canAllocMsg, Bool.and_eq_true, decide_eq_true_eq] at hcan
      obtain ⟨⟨hslot, hleft⟩, hfit⟩ := hcan
      exact ⟨_, _, _, .registered _ _ _ _ hlive hslot hleft fun _ => Message.valid_rawStore hsrc.ge hfit, rfl⟩
  | msgDelete =>
    obtain ⟨e, -, rfl⟩ | ⟨-, -, rfl⟩ := execMsgDelete_next h
    · exact CommandEffect.completed s e 0
    · exact ⟨_, _, _, .dropped, rfl⟩
  | msgPreprocess =>
    obtain ⟨e, rfl⟩ | ⟨m, -, hm, hraw, hfit, rfl⟩ := execMsgPreprocess_next h
    · exact CommandEffect.completed s e 0
    · exact ⟨_, _, _, .advanced s.engine m _ hm (.preprocess hraw hfit), rfl⟩
  | msgDigest =>
    obtain ⟨e, rfl⟩ | ⟨m, P, buf, -, hm, hpre, rfl⟩ := execMsgDigest_next h
    · exact CommandEffect.completed s e 0
    · exact ⟨_, _, _, .advanced _ m _ hm (.digest P buf s.engine hpre), rfl⟩
  | msgGetState | msgGetBitlen | msgGetPadlen | msgReadRaw | msgReadPadded | msgReadDigest | ctxMsgCount | ctxMsgAt =>
    exact readBack (by decide)

/-- What a CMD word can answer, legal or not (R213). -/
theorem runWord_effect {v : Word} {s t : State} (h : runWord v s = .next t) :
    ∃ u e r, CommandEffect s u r ∧ t = u.complete e r := by
  obtain ⟨i, -, hi⟩ | ⟨-, hill⟩ := runWord_cases v s
  · exact exec_effect (hi ▸ h)
  · cases hill.symm.trans h
    exact CommandEffect.completed s .illegal 0

/-- A handle left to issue is not truncated to 32 bits (R30, R103). -/
theorem State.newHandle_toNat {s : State} (h : s.handleLeft = true) : s.newHandle.toNat = s.nextHandle.toNat := by
  simp only [State.handleLeft, decide_eq_true_eq] at h
  rw [State.newHandle, BitVec.toNat_setWidth, Nat.mod_eq_of_lt h]

/-- While a handle is left to issue, the counter goes up by one (R30). -/
theorem State.nextHandle_succ_toNat {s : State} (h : s.handleLeft = true) :
    (s.nextHandle + 1).toNat = s.nextHandle.toNat + 1 := by
  simp only [State.handleLeft, decide_eq_true_eq] at h
  bv_omega

end Sys2Proof.Machine
end

section
/-! PROOFS. The invariant of the block, at reset and over every step (spec/10_state.md R22, R29 to R32, R41). -/

namespace Sys2Proof.Machine

/-- The handle a create command issues lies above every live one (R29, R103). -/
theorem State.Inv.lt_newHandle {s : State} (h : s.Inv) (hleft : s.handleLeft = true) {k : Handle} (hk : k ∈ s.order) :
    k.toNat < s.newHandle.toNat := by
  rw [State.newHandle_toNat hleft]
  exact (h.issued k hk).2

/-- A state with the parameters and counter of one that meets the invariant, some of its handles, valid records, and STATUS
and host memory in form, meets it. -/
theorem State.Inv.of_sublist {s t : State} (h : s.Inv) (hcfg : t.cfg = s.cfg) (hnext : t.nextHandle = s.nextHandle)
    (hsub : t.order.Sublist s.order) (hctx : t.ctxLive = false → t.messages = [])
    (hrec : ∀ p ∈ t.messages, p.2.Valid s.cfg) (hstatus : ∃ code : ErrCode, t.status = statusWord code t.ctxLive)
    (hmem : t.hostMem.wf = true) : t.Inv where
  config := hcfg ▸ h.config
  ordered := h.ordered.sublist hsub
  capacity := hcfg ▸ hsub.length_le.trans h.capacity
  issued k hk := hnext ▸ h.issued k (hsub.subset hk)
  counter := hnext ▸ h.counter
  noContext := hctx
  records := hcfg ▸ hrec
  status := hstatus
  memory := hmem

/-- The invariant speaks of the parameters, STATUS, the Context, the collection, the counter and the form of host memory
alone. -/
theorem State.Inv.of_eq {s t : State} (h : s.Inv) (hcfg : t.cfg = s.cfg) (hnext : t.nextHandle = s.nextHandle)
    (hmsgs : t.messages = s.messages) (hlive : t.ctxLive = s.ctxLive) (hstatus : t.status = s.status)
    (hmem : t.hostMem.wf = true) : t.Inv :=
  h.of_sublist hcfg hnext (by rw [State.order, hmsgs]; exact .refl _) (by rw [hmsgs, hlive]; exact h.noContext)
    (hmsgs ▸ h.records) (by rw [hstatus, hlive]; exact h.status) hmem

/-- Registering a valid record keeps the invariant: the new handle is the greatest, and there was a slot for it (R29, R103). -/
theorem State.Inv.register {s : State} (h : s.Inv) (hlive : s.ctxLive = true) (hslot : s.slotFree = true)
    (hleft : s.handleLeft = true) {raw : List Byte} {L : Dword} (hvalid : Message.Valid s.cfg ⟨L, raw, .raw⟩) :
    (s.register raw L).Inv where
  config := h.config
  ordered := by
    rw [State.register_order, List.pairwise_append]
    refine ⟨h.ordered, List.pairwise_singleton .., fun k hk n hn => ?_⟩
    rw [List.mem_singleton.1 hn]
    exact h.lt_newHandle hleft hk
  capacity := by
    simp only [State.slotFree, decide_eq_true_eq] at hslot
    simpa [State.order] using hslot
  issued := by
    rw [State.register_order, State.register_nextHandle, State.nextHandle_succ_toNat hleft]
    intro k hk
    rcases List.mem_append.1 hk with hk | hk
    · exact ⟨(h.issued k hk).1, (h.issued k hk).2.trans (Nat.lt_succ_self _)⟩
    · rw [List.mem_singleton.1 hk, State.newHandle_toNat hleft]
      exact ⟨h.counter.1, Nat.lt_succ_self _⟩
  counter := by
    rw [State.register_nextHandle, State.nextHandle_succ_toNat hleft]
    simp only [State.handleLeft, decide_eq_true_eq] at hleft
    exact ⟨Nat.le_add_left 1 _, hleft⟩
  noContext hdead := absurd (hlive.symm.trans hdead) (by decide)
  records := by
    intro p hp
    rcases List.mem_append.1 hp with hp | hp
    · exact h.records p hp
    · rw [List.mem_singleton.1 hp]; exact hvalid
  status := h.status
  memory := h.memory

/-- Whatever a command does, completion leaves the invariant (R200). -/
theorem CommandEffect.inv {s u : State} {r : Dword} (he : CommandEffect s u r) (h : s.Inv) (e : ErrCode) :
    (u.complete e r).Inv := by
  cases he with
  | kept raced n r =>
    exact h.of_sublist (by simp) (by simp) (by simp) (by simpa using h.noContext) (by simpa using h.records) ⟨e, rfl⟩
      (by simpa using h.memory)
  | emptied live =>
    exact h.of_sublist rfl rfl (List.nil_sublist _) (fun _ => rfl) (by simp) ⟨e, rfl⟩ h.memory
  | registered raced n raw L hlive hslot hleft hvalid =>
    have reg := h.register hlive hslot hleft (hvalid h.config)
    exact reg.of_sublist (by simp) (by simp) (by simp [State.newHandle]) (by simp [hlive])
      (by simpa [State.newHandle] using reg.records) ⟨e, rfl⟩ (by simpa using h.memory)
  | dropped =>
    refine h.of_sublist rfl rfl ?_ (fun hdead => ?_) (fun p hp => ?_) ⟨e, rfl⟩ h.memory
    · rw [State.complete_order, State.dropMsg_order]; exact List.filter_sublist
    · rw [State.complete_messages, State.dropMsg_messages, h.noContext hdead, List.filter_nil]
    · exact h.records p (List.mem_of_mem_filter hp)
  | advanced engine m m' hm hadv =>
    refine h.of_sublist rfl rfl (by rw [State.complete_order, State.setMsg_order]; exact .refl _) (fun hdead => ?_)
      (fun p hp => ?_) ⟨e, rfl⟩ h.memory
    · rw [State.complete_messages, State.setMsg_messages, h.noContext hdead, List.map_nil]
    · obtain ⟨q, hq, rfl⟩ := List.mem_map.1 hp
      split
      · exact hadv.valid (h.records _ (s.mem_of_msg? _ m hm))
      · exact h.records q hq

/-- A CMD word keeps the invariant (R213). -/
theorem State.Inv.runWord {s t : State} (h : s.Inv) {v : Word} (ht : runWord v s = .next t) : t.Inv := by
  obtain ⟨u, e, r, he, rfl⟩ := runWord_effect ht
  exact he.inv h e

/-- The reset event establishes all of the invariant that speaks of the block (R44, R230). -/
theorem State.inv_resetBlock {s : State} (hcfg : s.cfg.wf = true) (hmem : s.hostMem.wf = true) : s.resetBlock.Inv where
  config := hcfg
  ordered := .nil
  capacity := Nat.zero_le _
  issued := by rintro _ ⟨⟩
  counter := by rw [State.resetBlock_nextHandle]; decide
  noContext _ := rfl
  records := by rintro _ ⟨⟩
  status := ⟨.ok, by rw [State.resetBlock_status, State.resetBlock_ctxLive]; decide⟩
  memory := hmem

/-- Settles O57: the state after reset is what the reset event makes of it. -/
theorem resetMeetsTheInvariant : Obligations.ResetMeetsTheInvariant :=
  State.inv_resetBlock (s := State.reset) (by decide) rfl

/-- Settles O58, by cases on what a step can do: a host event changes nothing the invariant speaks of but host memory, whose
form a store keeps, and a command keeps the invariant. -/
theorem everyStepKeepsTheInvariant : Obligations.EveryStepKeepsTheInvariant := by
  unfold Obligations.EveryStepKeepsTheInvariant
  intro s t h hstep
  obtain ⟨-, rfl⟩ | ⟨rest, -, rfl⟩ | ⟨rest, addr, b, -, rfl⟩ | ⟨rest, addr, b, -, rfl⟩ | ⟨e, rest, obs, -, rfl⟩ |
    ⟨e, rest, ses, r, p, v, -, rfl⟩ | ⟨e, rest, ses, v, u, -, hu, rfl⟩ := step_next hstep
  · exact h
  · exact State.inv_resetBlock h.config h.memory
  · exact h.of_eq rfl rfl rfl rfl rfl (Memory.write_wf _ _ _ h.memory)
  · exact h.of_eq rfl rfl rfl rfl rfl h.memory
  · exact h.of_eq rfl rfl rfl rfl rfl h.memory
  · exact h.of_eq (by simp) (by simp) (by simp) (by simp) (by simp) (by simpa using h.memory)
  · have before : ({ s with bus := rest, session := ses } : State).Inv := h.of_eq rfl rfl rfl rfl rfl h.memory
    have after : u.Inv := before.runWord hu
    exact after.of_eq rfl rfl rfl rfl rfl (Memory.writeAll_wf _ _ after.memory)

end Sys2Proof.Machine
end

section
/-! PROOFS. What every command leaves in STATUS, on the host's side, in a record and in the collection; and reset. -/

namespace Sys2Proof.Machine

/-- STATUS.ERR is one of the assigned codes 0 to 7 (R201). -/
theorem ErrCode.code_le (e : ErrCode) : e.code.toNat ≤ 7 := by
  cases e <;> decide

/-- Settles O29: every command ends in a completion, which writes an assigned code, CTX_LIVE and zeros. -/
theorem statusAfterEveryCommand : Obligations.StatusAfterEveryCommand := by
  unfold Obligations.StatusAfterEveryCommand
  intro v s t h
  obtain ⟨u, e, r, -, rfl⟩ := runWord_effect h
  obtain ⟨herr, hlow, hlive, hhigh⟩ := statusWord_fields e u.ctxLive
  refine ⟨?_, hlow, hhigh, hlive⟩
  rw [State.err, State.complete_status, herr]
  exact e.code_le

/-- Settles O30 by the frame of every CMD word. -/
theorem commandsNeverWriteTheHostsSide : Obligations.CommandsNeverWriteTheHostsSide := by
  unfold Obligations.CommandsNeverWriteTheHostsSide
  intro v s t h
  obtain ⟨hcfg, hargA, hargB, hhandle, hmem, hracing, hbus, hsession, hobserved⟩ := runWord_sameHostSide h
  exact ⟨hargA, hargB, hhandle, hcfg, hmem, hracing, hbus, hsession, hobserved⟩

/-- A handle's record that stays as it is. -/
theorem State.forward_of_msg?_eq {s t : State} {h : Handle} {m m' : Message} (hm : s.msg? h = some m)
    (hm' : t.msg? h = some m') (heq : t.msg? h = s.msg? h) : m.Forward m' := by
  cases hm'.symm.trans (heq.trans hm)
  exact .refl m

/-- A record there before and after a command is the same record, or the one HANDLE names moved on (R41). -/
theorem CommandEffect.forward {s u : State} {r : Dword} (he : CommandEffect s u r) {h : Handle} {m m' : Message}
    (hm : s.msg? h = some m) (hm' : u.msg? h = some m') : m.Forward m' := by
  have same := State.forward_of_msg?_eq hm hm'
  cases he with
  | kept raced n r => exact same (State.spendFree_msg? ..)
  | emptied live => cases hm'
  | registered raced n raw L _ _ _ _ => exact same (by rw [State.register_msg?, State.spendFree_msg?, hm, Option.some_or])
  | dropped =>
    rw [State.dropMsg_msg?] at hm'
    split at hm'
    · cases hm'
    · cases hm'.symm.trans hm; exact .refl m
  | advanced engine k k' hk hadv =>
    by_cases hh : h = s.handle
    · subst hh
      cases hk.symm.trans hm
      rw [State.setMsg_msg?, if_pos rfl, show State.msg? { s with engine := engine } s.handle = some m from hm] at hm'
      cases hm'
      exact hadv.forward
    · exact same (by rw [State.setMsg_msg?, if_neg hh]; rfl)

/-- Settles O33, by cases on what a step can do: only a reset and a command change the collection, and a reset leaves no
record. -/
theorem messageLifecycleIsForwardOnly : Obligations.MessageLifecycleIsForwardOnly := by
  unfold Obligations.MessageLifecycleIsForwardOnly
  intro s t h m m' hstep hm hm'
  have same := State.forward_of_msg?_eq hm hm'
  obtain ⟨-, rfl⟩ | ⟨rest, -, rfl⟩ | ⟨rest, addr, b, -, rfl⟩ | ⟨rest, addr, b, -, rfl⟩ | ⟨e, rest, obs, -, rfl⟩ |
    ⟨e, rest, ses, r, p, v, -, rfl⟩ | ⟨e, rest, ses, v, w, -, hw, rfl⟩ := step_next hstep
  · exact same rfl
  · cases hm'
  · exact same rfl
  · exact same rfl
  · exact same rfl
  · exact same (State.writeReg_msg? ..)
  · obtain ⟨u, e, r, he, rfl⟩ := runWord_effect hw
    exact he.forward hm hm'

/-- Settles O34, by cases on what a command can do: only registering touches the counter, and under the invariant its handle
lies above every live one and above 0. -/
theorem handlesAreNeverReused : Obligations.HandlesAreNeverReused := by
  unfold Obligations.HandlesAreNeverReused
  intro v s t h ht
  obtain ⟨u, e, r, he, rfl⟩ := runWord_effect ht
  cases he with
  | kept raced n r => exact .inl ⟨State.spendFree_nextHandle .., by rw [State.complete_order, State.spendFree_order]⟩
  | emptied live => exact .inl ⟨rfl, List.nil_sublist _⟩
  | registered raced n raw L _ _ hleft _ =>
    refine .inr ⟨?_, s.newHandle, ?_, State.newHandle_toNat hleft, ?_, ?_, rfl⟩
    · rw [State.complete_nextHandle, State.register_nextHandle, State.spendFree_nextHandle,
        State.nextHandle_succ_toNat hleft]
    · simp [State.newHandle]
    · intro hzero
      have positive := State.newHandle_toNat hleft ▸ h.counter.1
      rw [hzero] at positive
      exact absurd positive (by decide)
    · exact fun hmem => (h.lt_newHandle hleft hmem).false
  | dropped =>
    refine .inl ⟨rfl, ?_⟩
    rw [State.complete_order, State.dropMsg_order]
    exact List.filter_sublist
  | advanced engine m m' _ _ =>
    refine .inl ⟨rfl, ?_⟩
    rw [State.complete_order, State.setMsg_order]
    exact .refl _

/-- Settles O55: the values of R44 stand in `State.reset` and in `State.resetBlock`, which is what a reset event makes of
the state. -/
theorem resetValues : Obligations.ResetValues := by
  unfold Obligations.ResetValues
  refine ⟨⟨rfl, rfl, rfl, rfl, rfl, rfl, rfl, fun _ => rfl, rfl⟩, fun s rest hbus => ?_⟩
  refine ⟨({ s with bus := rest } : State).resetBlock, by rw [step, hbus]; rfl, ?_⟩
  exact ⟨rfl, rfl, rfl, rfl, rfl, rfl, rfl, fun _ => rfl, rfl, rfl, rfl, rfl, rfl⟩

end Sys2Proof.Machine
end

section
/-! PROOFS. Accesses of the register block by host address, offset and width (spec/10_state.md R20, R27,
spec/20_memory.md R51, R53, R54). -/

namespace Sys2Proof.Machine

/-! The parts of a 64-bit register, as numbers (R54). -/

@[simp] theorem Part.get_whole_toNat (v : Dword) : (Part.whole.get v).toNat = v.toNat := rfl

@[simp] theorem Part.get_low_toNat (v : Dword) : (Part.low.get v).toNat = v.toNat % 2 ^ 32 := by
  simp only [Part.get, BitVec.toNat_setWidth, BitVec.extractLsb'_toNat, Nat.shiftRight_zero]
  omega

@[simp] theorem Part.get_high_toNat (v : Dword) : (Part.high.get v).toNat = v.toNat / 2 ^ 32 := by
  have := v.isLt
  simp only [Part.get, BitVec.toNat_setWidth, BitVec.extractLsb'_toNat, Nat.shiftRight_eq_div_pow]
  omega

@[simp] theorem Part.put_whole_toNat (v old : Dword) : (Part.whole.put v old).toNat = v.toNat := rfl

@[simp] theorem Part.put_low_toNat (v old : Dword) :
    (Part.low.put v old).toNat = old.toNat / 2 ^ 32 * 2 ^ 32 + v.toNat % 2 ^ 32 := by
  have := old.isLt
  rw [Part.put, BitVec.toNat_append, ← Nat.shiftLeft_add_eq_or_of_lt (BitVec.isLt _), Nat.shiftLeft_eq]
  simp only [BitVec.extractLsb'_toNat, Nat.shiftRight_eq_div_pow]
  omega

@[simp] theorem Part.put_high_toNat (v old : Dword) :
    (Part.high.put v old).toNat = v.toNat % 2 ^ 32 * 2 ^ 32 + old.toNat % 2 ^ 32 := by
  rw [Part.put, BitVec.toNat_append, ← Nat.shiftLeft_add_eq_or_of_lt (BitVec.isLt _), Nat.shiftLeft_eq]
  simp only [BitVec.extractLsb'_toNat, Nat.shiftRight_zero]

/-- The offset of an address of the block (R20). -/
theorem blockOffset_of_toNat {cfg : Config} {addr : Dword} {off : Nat} (hoff : off < 0x100)
    (haddr : addr.toNat = cfg.devBase.toNat + off) : blockOffset cfg addr = some (BitVec.ofNat 8 off) := by
  rw [blockOffset, if_pos (by omega), haddr, Nat.add_sub_cancel_left]

/-- An access none of whose bytes lies in the block selects nothing of it (log entry 11). -/
theorem selectAccess_outside {cfg : Config} {addr : Dword} {width : Nat} (h : outsideBlock cfg addr width) :
    selectAccess cfg addr width = .outside := by
  unfold outsideBlock at h
  rw [selectAccess, blockOffset, if_neg (by omega)]

/-- What an access of the block at a defined offset and width selects (R20, R53). -/
theorem selectAccess_register {cfg : Config} {addr : Dword} {width off : Nat} {r : Reg} {p : Part} (hoff : off < 0x100)
    (haddr : addr.toNat = cfg.devBase.toNat + off) (hsel : selectReg (BitVec.ofNat 8 off) width = some (r, p)) :
    selectAccess cfg addr width = .register (BitVec.ofNat 8 off) r p := by
  rw [selectAccess, blockOffset_of_toNat hoff haddr]
  simp only [hsel]

/-- The 32-bit accesses at 4-byte-aligned offsets (R53). -/
theorem selectReg_32 {off : Nat} (hoff : off < 0x100) (halign : off % 4 = 0) :
    selectReg (BitVec.ofNat 8 off) 32 = some ((select32 off).1, (select32 off).2) := by
  have hnat : (BitVec.ofNat 8 off).toNat = off := by rw [BitVec.toNat_ofNat, Nat.mod_eq_of_lt hoff]
  simp [selectReg, hnat, halign]

/-- The 64-bit accesses at 8-byte-aligned offsets (R53). -/
theorem selectReg_64 {off : Nat} (hoff : off < 0x100) (halign : off % 8 = 0) :
    selectReg (BitVec.ofNat 8 off) 64 = select64 off := by
  have hnat : (BitVec.ofNat 8 off).toNat = off := by rw [BitVec.toNat_ofNat, Nat.mod_eq_of_lt hoff]
  simp [selectReg, hnat, halign]

/-- A read of a register inside nobody else's sequence: the agent observes its value (R51, R240). -/
theorem step_read_register {s : State} {agent : Nat} {addr : Dword} {width off : Nat} {rest : List HostEvent}
    {r : Reg} {p : Part} (hoff : off < 0x100) (haddr : addr.toNat = s.cfg.devBase.toNat + off)
    (hbus : s.bus = .read agent addr width :: rest) (hfree : ({ s with bus := rest } : State).intrudedOn agent = none)
    (hsel : selectReg (BitVec.ofNat 8 off) width = some (r, p)) :
    step s = .next { s with
      bus := rest, observed := s.observed ++ [⟨agent, BitVec.ofNat 8 off, width, s.readReg r p⟩] } := by
  rw [step, hbus]
  simp only [hostEvent, hostRead, selectAccess_register hoff haddr hsel, hfree]
  rfl

/-- A write of a register inside nobody else's sequence has the register's effect (R51, R236). -/
theorem step_write_register {s : State} {agent : Nat} {addr v : Dword} {width off : Nat} {rest : List HostEvent}
    {r : Reg} {p : Part} (hoff : off < 0x100) (haddr : addr.toNat = s.cfg.devBase.toNat + off)
    (hbus : s.bus = .write agent addr width v :: rest)
    (hfree : ({ s with bus := rest } : State).intrudedOn agent = none)
    (hsel : selectReg (BitVec.ofNat 8 off) width = some (r, p)) :
    step s = ({ s with bus := rest, session := sessionAfter agent r s.session } : State).writeEffect r p v := by
  rw [step, hbus]
  simp only [hostEvent, hostWrite, selectAccess_register hoff haddr hsel, hfree]

/-- A write of a register other than CMD is a register write (R21, R51). -/
theorem writeEffect_eq_writeReg (s : State) {r : Reg} (hr : r ≠ .cmd) (p : Part) (v : Dword) :
    s.writeEffect r p v = .next (s.writeReg r p v) := by
  cases r
  case cmd => exact absurd rfl hr
  all_goals rfl


end Sys2Proof.Machine
end

section
/-! PROOFS. What a defined register read returns, and what a defined register write other than of CMD does. -/

namespace Sys2Proof.Machine

/-- The number a defined read returns, by offset and width (R20, R54). -/
def State.valueAt (s : State) (off width : Nat) : Nat :=
  if off = 0x04 then s.status.toNat
  else if off = 0x08 then (if width = 64 then s.argA.toNat else s.argA.toNat % 2 ^ 32)
  else if off = 0x0C then s.argA.toNat / 2 ^ 32
  else if off = 0x10 then (if width = 64 then s.argB.toNat else s.argB.toNat % 2 ^ 32)
  else if off = 0x14 then s.argB.toNat / 2 ^ 32
  else if off = 0x18 then s.handle.toNat
  else if off = 0x20 then (if width = 64 then s.result.toNat else s.result.toNat % 2 ^ 32)
  else if off = 0x24 then s.result.toNat / 2 ^ 32
  else 0

/-- The offsets of R20 at which a 32-bit access reaches a register; every other is reserved (R27). -/
def registerOffsets : List Nat := [0x00, 0x04, 0x08, 0x0C, 0x10, 0x14, 0x18, 0x20, 0x24]

theorem not_mem_registerOffsets {off : Nat} : off ∉ registerOffsets ↔
    off ≠ 0x00 ∧ off ≠ 0x04 ∧ off ≠ 0x08 ∧ off ≠ 0x0C ∧ off ≠ 0x10 ∧ off ≠ 0x14 ∧ off ≠ 0x18 ∧ off ≠ 0x20 ∧
      off ≠ 0x24 := by
  simp [registerOffsets]

/-- The offsets of R20 at which a 64-bit access reaches a register. -/
def wideRegisterOffsets : List Nat := [0x08, 0x10, 0x20]

theorem not_mem_wideRegisterOffsets {off : Nat} : off ∉ wideRegisterOffsets ↔ off ≠ 0x08 ∧ off ≠ 0x10 ∧ off ≠ 0x20 := by
  simp [wideRegisterOffsets]

/-- A defined 64-bit access reaches, whole, the register a 32-bit one reaches at its offset (R20, R53). -/
theorem select64_eq {off : Nat} (halign : off % 8 = 0) (h0 : off ≠ 0x00) (h18 : off ≠ 0x18) :
    select64 off = some ((select32 off).1, .whole) := by
  have noHalf : off ≠ 0x04 ∧ off ≠ 0x0C ∧ off ≠ 0x14 ∧ off ≠ 0x24 := by omega
  by_cases hreg : off ∈ wideRegisterOffsets
  · fin_cases hreg <;> rfl
  · simp [select64, select32, h0, h18, noHalf, not_mem_wideRegisterOffsets.1 hreg]

/-- A 32-bit read returns the register, or the half of it, at the offset. -/
theorem State.readReg_select32_toNat (s : State) (off : Nat) :
    (s.readReg (select32 off).1 (select32 off).2).toNat = s.valueAt off 32 := by
  have extend (x : Word) : (x.setWidth 64).toNat = x.toNat := BitVec.toNat_setWidth_of_le (by decide)
  by_cases hreg : off ∈ registerOffsets
  · fin_cases hreg <;> simp [select32, State.readReg, State.valueAt, extend]
  · simp [select32, State.readReg, State.valueAt, not_mem_registerOffsets.1 hreg]

/-- A 64-bit read returns the whole register at the offset; no high half lies at an 8-byte-aligned one. -/
theorem State.readReg_whole_toNat (s : State) {off : Nat} (halign : off % 8 = 0) (h0 : off ≠ 0x00) (h18 : off ≠ 0x18) :
    (s.readReg (select32 off).1 .whole).toNat = s.valueAt off 64 := by
  have noHalf : off ≠ 0x04 ∧ off ≠ 0x0C ∧ off ≠ 0x14 ∧ off ≠ 0x24 := by omega
  by_cases hreg : off ∈ wideRegisterOffsets
  · fin_cases hreg <;> rfl
  · simp [select32, State.readReg, State.valueAt, h0, h18, noHalf, not_mem_wideRegisterOffsets.1 hreg]

/-- Settles O49: an access selects its register, whose value by offset is the table of R20; an access outside the block
selects none. -/
theorem registerReadsReturnTheRegister : Obligations.RegisterReadsReturnTheRegister := by
  unfold Obligations.RegisterReadsReturnTheRegister
  refine ⟨fun s agent addr width off rest hoff haddr hbus hfree hdef => ?_,
    fun s agent addr width rest hbus hout => ?_⟩
  · rcases hdef with ⟨rfl, halign⟩ | ⟨rfl, halign, h0, h18⟩
    · exact ⟨_, step_read_register hoff haddr hbus hfree (selectReg_32 hoff halign), s.readReg_select32_toNat off⟩
    · have hsel := (selectReg_64 hoff halign).trans (select64_eq halign h0 h18)
      exact ⟨_, step_read_register hoff haddr hbus hfree hsel, s.readReg_whole_toNat halign h0 h18⟩
  · rw [step, hbus]
    simp only [hostEvent, hostRead, selectAccess_outside hout]

/-- The numbers ARG_A, ARG_B and HANDLE hold after a write, by offset and width (R20, R54). -/
def State.WrittenAt (s t : State) (off width : Nat) (v : Dword) : Prop :=
  t.argA.toNat =
    (if off = 0x08 then
      (if width = 64 then v.toNat else s.argA.toNat / 2 ^ 32 * 2 ^ 32 + v.toNat % 2 ^ 32)
    else if off = 0x0C then v.toNat % 2 ^ 32 * 2 ^ 32 + s.argA.toNat % 2 ^ 32
    else s.argA.toNat) ∧
  t.argB.toNat =
    (if off = 0x10 then
      (if width = 64 then v.toNat else s.argB.toNat / 2 ^ 32 * 2 ^ 32 + v.toNat % 2 ^ 32)
    else if off = 0x14 then v.toNat % 2 ^ 32 * 2 ^ 32 + s.argB.toNat % 2 ^ 32
    else s.argB.toNat) ∧
  t.handle.toNat = (if off = 0x18 then v.toNat % 2 ^ 32 else s.handle.toNat)

/-- A 32-bit write replaces the half it addresses. -/
theorem State.writtenAt_select32 (s : State) (off : Nat) (v : Dword) :
    s.WrittenAt (s.writeReg (select32 off).1 (select32 off).2 v) off 32 v := by
  by_cases hreg : off ∈ registerOffsets
  · fin_cases hreg <;> simp [State.WrittenAt, select32, State.writeReg]
  · simp [State.WrittenAt, select32, State.writeReg, not_mem_registerOffsets.1 hreg]

/-- A 64-bit write replaces the whole register it addresses. -/
theorem State.writtenAt_whole (s : State) {off : Nat} (halign : off % 8 = 0) (h0 : off ≠ 0x00) (h18 : off ≠ 0x18)
    (v : Dword) : s.WrittenAt (s.writeReg (select32 off).1 .whole v) off 64 v := by
  have noHalf : off ≠ 0x04 ∧ off ≠ 0x0C ∧ off ≠ 0x14 ∧ off ≠ 0x24 := by omega
  by_cases hreg : off ∈ wideRegisterOffsets
  · fin_cases hreg <;> simp [State.WrittenAt, select32, State.writeReg]
  · simp [State.WrittenAt, select32, State.writeReg, h0, h18, noHalf, not_mem_wideRegisterOffsets.1 hreg]

/-- CMD is reached at offset 0x00 alone (R20). -/
theorem select32_ne_cmd {off : Nat} (h0 : off ≠ 0x00) : (select32 off).1 ≠ .cmd := by
  rw [select32, if_neg h0]
  split_ifs <;> decide

/-- Settles O50: an access other than of CMD selects a register write, which changes the bits R20 and R54 give it; an access
outside the block selects none. -/
theorem registerWritesReplaceTheAddressedBits : Obligations.RegisterWritesReplaceTheAddressedBits := by
  unfold Obligations.RegisterWritesReplaceTheAddressedBits
  refine ⟨fun s agent addr v width off rest hoff h0 haddr hbus hfree hdef => ?_,
    fun s agent addr v width rest hbus hout => ?_⟩
  · have write {p : Part} (hsel : selectReg (BitVec.ofNat 8 off) width = some ((select32 off).1, p))
        (hbits : ∀ u : State, u.WrittenAt (u.writeReg (select32 off).1 p v) off width v) :
        ∃ t, step s = .next t ∧
          t = { s with bus := rest, session := t.session, argA := t.argA, argB := t.argB, handle := t.handle } ∧
          s.WrittenAt t off width v := by
      have effect := writeEffect_eq_writeReg
        { s with bus := rest, session := sessionAfter agent (select32 off).1 s.session } (select32_ne_cmd h0) p v
      refine ⟨_, (step_write_register hoff haddr hbus hfree hsel).trans effect, ?_, hbits _⟩
      cases (select32 off).1 <;> rfl
    rcases hdef with ⟨rfl, halign⟩ | ⟨rfl, halign, h18⟩
    · exact write (selectReg_32 hoff halign) fun u => u.writtenAt_select32 off v
    · exact write ((selectReg_64 hoff halign).trans (select64_eq halign h0 h18))
        fun u => u.writtenAt_whole halign h0 h18 v
  · rw [step, hbus]
    simp only [hostEvent, hostWrite, selectAccess_outside hout]

end Sys2Proof.Machine
end

section
/-! PROOFS. Where a create command's read of host memory is stuck (spec/20_memory.md R57, spec/40_context.md R107, R108). -/

namespace Sys2Proof.Machine

/-- Whether a byte of a buffer is refused is host memory's alone to say, raced or not (R57). -/
theorem State.hostByte_eq_none_iff (s : State) (r : Bool) (addr : Dword) (i : Nat) :
    s.hostByte r addr i = none ↔ s.hostMem.read ((addr.toNat + i) % 2 ^ s.cfg.hostAddrBits) = none := by
  rw [← Option.isNone_iff_eq_none, ← Option.isNone_iff_eq_none, ← Option.not_isSome, ← Option.not_isSome,
    State.hostByte_isSome]

/-- The scan of a text ends at the first refused address, behind nonzero bytes (R57, R107). -/
theorem State.scanText_eq_refused (s : State) (r : Bool) (addr : Dword) {n k : Nat} (hk : k < n)
    (h : ∀ j < k, ∃ b, s.hostByte r addr j = some b ∧ b ≠ 0) (hend : s.hostByte r addr k = none) :
    s.scanText r addr n 0 = .refused (hostAddr s.cfg addr k) := by
  choose b hb h0 using h
  have passed := s.scanText_append r addr n 0 (List.ofFn fun j : Fin k => b j j.isLt) (by simpa using hk.le)
    (fun j hj => by simpa using hb j (by simpa using hj)) (List.forall_mem_ofFn_iff.2 fun j => h0 j j.isLt)
  obtain ⟨m, hm⟩ : ∃ m, n - k = m + 1 := ⟨n - k - 1, by omega⟩
  rw [List.length_ofFn, Nat.zero_add, hm, State.scanText, hend] at passed
  exact passed.trans (Scan.foldr_push_refused _ _)

/-- A buffer read ends at the first refused address (R55, R57). -/
theorem State.memRead_eq_error (s : State) (r : Bool) (addr : Dword) {n i k : Nat} (hk : k < n)
    (h : ∀ j < k, (s.hostByte r addr (i + j)).isSome = true) (hend : s.hostByte r addr (i + k) = none) :
    s.memRead r addr n i = .error (hostAddr s.cfg addr (i + k)) := by
  induction k generalizing n i with
  | zero =>
    obtain ⟨m, rfl⟩ : ∃ m, n = m + 1 := ⟨n - 1, by omega⟩
    rw [Nat.add_zero] at hend
    simp only [State.memRead, hend, Nat.add_zero]
  | succ k ih =>
    obtain ⟨m, rfl⟩ : ∃ m, n = m + 1 := ⟨n - 1, by omega⟩
    have shift (j : Nat) : i + (j + 1) = i + 1 + j := by omega
    obtain ⟨b, hb⟩ := Option.isSome_iff_exists.1 (h 0 k.succ_pos)
    rw [shift] at hend ⊢
    have rest := ih (Nat.lt_of_succ_lt_succ hk) (fun j hj => shift j ▸ h (j + 1) (by omega)) hend
    rw [Nat.add_zero] at hb
    simp only [State.memRead, hb, rest]

/-- Settles O13: the scan asks for the bytes up to the refused address and for it, so no store in flight races with it, and
it ends there. -/
theorem msgCreateTextStuckAtRefusedAddress : Obligations.MsgCreateTextStuckAtRefusedAddress := by
  unfold Obligations.MsgCreateTextStuckAtRefusedAddress
  intro s n hlive hslot hleft hraced hn hbytes hend
  have unraced : s.textRaced s.argA = false := by
    rw [State.textRaced, s.textReads_of_end s.argA _ n (by omega) hbytes (.inl hend)]
    exact hraced
  have scan := s.scanText_eq_refused false s.argA (Nat.lt_succ_of_le hn)
    (fun j hj => by rw [State.hostByte_unraced]; exact hbytes j hj) ((s.hostByte_eq_none_iff ..).2 hend)
  have capacity : (s.slotFree && s.handleLeft) = true :=
    Bool.and_eq_true_iff.2 ⟨decide_eq_true hslot, decide_eq_true hleft⟩
  change execMsgCreateText s = _
  rw [execMsgCreateText_eq, withContext_live s _ hlive, if_pos capacity, unraced, scan]
  rfl

/-- Settles O16: the read of the buffer, raced or not, ends at the refused address. -/
theorem msgCreateBufStuckAtRefusedAddress : Obligations.MsgCreateBufStuckAtRefusedAddress := by
  unfold Obligations.MsgCreateBufStuckAtRefusedAddress
  intro s n hlive hslot hleft hfit hn hbytes hend
  have read := s.memRead_eq_error (s.raced s.argA ((s.argB.toNat + 7) / 8)) s.argA (i := 0) hn
    (fun j hj => by rw [State.hostByte_isSome, Nat.zero_add]; exact hbytes j hj)
    ((s.hostByte_eq_none_iff ..).2 (by rw [Nat.zero_add]; exact hend))
  have capacity : s.canAllocMsg s.argB.toNat = true :=
    Bool.and_eq_true_iff.2 ⟨Bool.and_eq_true_iff.2 ⟨decide_eq_true hslot, decide_eq_true hleft⟩, decide_eq_true hfit⟩
  change execMsgCreateBuf s = _
  rw [execMsgCreateBuf_eq, withContext_live s _ hlive, if_pos capacity, read, Nat.zero_add]
  rfl

end Sys2Proof.Machine
end

section
/-! PROOFS. An access of the register block is a bus error exactly when it selects no register (spec/20_memory.md R53). -/

namespace Sys2Proof.Machine

/-- A fault behind the NoContext check is what the check lets through. -/
theorem withContext_fault {s : State} {k : Result} {f : Fault} (h : withContext s k = .fault f) : k = .fault f := by
  cases hl : s.ctxLive
  · rw [withContext_dead s k hl] at h; cases h
  · rwa [withContext_live s k hl] at h

/-- A fault behind the lookup of HANDLE is what the lookup lets through. -/
theorem withMessage_fault {s : State} {k : Message → Result} {f : Fault} (h : withMessage s k = .fault f) :
    ∃ m, k m = .fault f := by
  cases hm : s.msg? s.handle with
  | none => rw [withMessage_none k hm] at h; cases h
  | some m => rw [withMessage_some k hm] at h; exact ⟨m, h⟩

/-- MSG_CREATE_TEXT faults only by being stuck (R57). -/
theorem execMsgCreateText_fault {s : State} {f : Fault} (h : execMsgCreateText s = .fault f) : ∃ a, f = .stuck a := by
  rw [execMsgCreateText_eq] at h
  have h := withContext_fault h
  split at h
  · split at h
    · cases h; exact ⟨_, rfl⟩
    · cases h
    · cases h
  · cases h

/-- MSG_CREATE_BUF faults only by being stuck (R57). -/
theorem execMsgCreateBuf_fault {s : State} {f : Fault} (h : execMsgCreateBuf s = .fault f) : ∃ a, f = .stuck a := by
  rw [execMsgCreateBuf_eq] at h
  have h := withContext_fault h
  split at h
  · split at h
    · cases h; exact ⟨_, rfl⟩
    · cases h
  · cases h

/-- The only fault of a command is the stuck case (R57, R213). -/
theorem exec_fault {i : Instr} {s : State} {f : Fault} (h : exec i s = .fault f) : ∃ a, f = .stuck a := by
  have readBack (hi : i ∈ [Instr.msgGetState, .msgGetBitlen, .msgGetPadlen, .msgReadRaw, .msgReadPadded,
      .msgReadDigest, .ctxMsgCount, .ctxMsgAt]) : ∃ a, f = .stuck a := by
    obtain ⟨e, r, hr, -⟩ := readBack_next i s hi
    cases hr.symm.trans h
  cases i with
  | ctxCreate =>
    change execCtxCreate s = _ at h
    rw [execCtxCreate] at h
    split at h <;> cases h
  | ctxDestroy => cases withContext_fault h
  | msgCreateText => exact execMsgCreateText_fault h
  | msgCreateBuf => exact execMsgCreateBuf_fault h
  | msgDelete =>
    obtain ⟨m, hm⟩ := withMessage_fault (withContext_fault h)
    cases hm
  | msgPreprocess =>
    obtain ⟨m, hm⟩ := withMessage_fault (withContext_fault h)
    split at hm
    · cases hm
    · cases hm
    · dsimp only at hm
      split at hm <;> cases hm
  | msgDigest =>
    obtain ⟨m, hm⟩ := withMessage_fault (withContext_fault h)
    split at hm <;> cases hm
  | msgGetState | msgGetBitlen | msgGetPadlen | msgReadRaw | msgReadPadded | msgReadDigest | ctxMsgCount | ctxMsgAt =>
    exact readBack (by decide)

/-- The only fault of a register write is the stuck case of the command it starts. -/
theorem writeEffect_fault {s : State} {r : Reg} {p : Part} {v : Dword} {f : Fault} (h : s.writeEffect r p v = .fault f) :
    ∃ a, f = .stuck a := by
  by_cases hr : r = .cmd
  · subst hr
    change mapNext State.landStores (runWord (v.setWidth 32) s) = _ at h
    obtain ⟨i, -, hi⟩ | ⟨-, hill⟩ := runWord_cases (v.setWidth 32) s
    · rw [hi] at h
      cases he : exec i s with
      | fault g => rw [he] at h; cases h; exact exec_fault he
      | next t => rw [he] at h; cases h
      | refused g => rw [he] at h; cases h
    · rw [hill] at h; cases h
  · rw [writeEffect_eq_writeReg s hr] at h; cases h

/-- An access selects no register exactly when R53 does not define it. -/
theorem selectReg_eq_none_iff {off width : Nat} (hoff : off < 0x100) :
    selectReg (BitVec.ofNat 8 off) width = none ↔
      ¬ ((width = 32 ∧ off % 4 = 0) ∨ (width = 64 ∧ off % 8 = 0 ∧ off ≠ 0x00 ∧ off ≠ 0x18)) := by
  by_cases h32 : width = 32 ∧ off % 4 = 0
  · obtain ⟨rfl, halign⟩ := h32
    simp [selectReg_32 hoff halign, halign]
  by_cases h64 : width = 64 ∧ off % 8 = 0
  · obtain ⟨rfl, halign⟩ := h64
    rw [selectReg_64 hoff halign]
    by_cases h0 : off = 0x00
    · simp [select64, h0]
    by_cases h18 : off = 0x18
    · simp [select64, h18]
    simp [select64_eq halign h0 h18, halign, h0, h18]
  · have hnat : (BitVec.ofNat 8 off).toNat = off := by rw [BitVec.toNat_ofNat, Nat.mod_eq_of_lt hoff]
    rw [selectReg, hnat, if_neg h32, if_neg h64]
    tauto

section
variable {s : State} {agent : Nat} {addr v : Dword} {width off : Nat} {rest : List HostEvent}
  (hoff : off < 0x100) (haddr : addr.toNat = s.cfg.devBase.toNat + off)
  (hbus : s.bus = .write agent addr width v :: rest ∨ s.bus = .read agent addr width :: rest)
include hoff haddr hbus

/-- A write or read that selects no register is a bus error at its offset and width (R53). -/
theorem step_access_undefined (hsel : selectReg (BitVec.ofNat 8 off) width = none) :
    step s = .fault (.busError (BitVec.ofNat 8 off) width) := by
  have hacc : selectAccess s.cfg addr width = .undefined (BitVec.ofNat 8 off) := by
    simp only [selectAccess, blockOffset_of_toNat hoff haddr, hsel]
  rcases hbus with hbus | hbus <;> rw [step, hbus]
  · simp only [hostEvent, hostWrite, hacc]
  · simp only [hostEvent, hostRead, hacc]

/-- A write or read of a register faults only by the stuck case of a command it starts (R57). -/
theorem step_access_fault {r : Reg} {p : Part} (hsel : selectReg (BitVec.ofNat 8 off) width = some (r, p)) {f : Fault}
    (h : step s = .fault f) : ∃ a, f = .stuck a := by
  have hacc := selectAccess_register hoff haddr hsel
  rcases hbus with hbus | hbus <;> rw [step, hbus] at h
  · simp only [hostEvent, hostWrite, hacc] at h
    split at h
    · cases h
    · exact writeEffect_fault h
  · simp only [hostEvent, hostRead, hacc] at h
    split at h <;> cases h

end

/-- Settles O48: an access R53 does not define selects no register and is a bus error; of a defined one the only fault is
the stuck case. -/
theorem undefinedAccessesAreBusErrors : Obligations.UndefinedAccessesAreBusErrors := by
  unfold Obligations.UndefinedAccessesAreBusErrors
  intro s agent addr v width off rest hoff haddr hbus
  rw [← selectReg_eq_none_iff hoff]
  refine ⟨fun hstep => ?_, step_access_undefined hoff haddr hbus⟩
  by_contra hdef
  obtain ⟨⟨r, p⟩, hsel⟩ := Option.ne_none_iff_exists'.1 hdef
  obtain ⟨a, ha⟩ := step_access_fault hoff haddr hbus hsel hstep
  cases ha

end Sys2Proof.Machine
end

section
/-! PROOFS. What the read-back commands leave unchanged, and what host memory reads after host stores (spec/20_memory.md R55,
R60, R62). -/

namespace Sys2Proof.Machine

/-- Settles O31: each of these commands answers a completion of the state it started in. -/
theorem readBackChangesOnlyStatusAndResult : Obligations.ReadBackChangesOnlyStatusAndResult := by
  unfold Obligations.ReadBackChangesOnlyStatusAndResult
  intro i s hi
  obtain ⟨e, r, hexec, -⟩ := readBack_next i s hi
  exact ⟨s.complete e r, hexec, rfl⟩

/-- Several stores leave an address that none of them names. -/
theorem Memory.read_writeAll_of_forall_ne (m : Memory) {stores : List Host.Cell} {a : Nat}
    (h : ∀ p ∈ stores, p.1 ≠ a) : (m.writeAll stores).read a = m.read a := by
  have unnamed : (stores.reverse.find? fun p => p.1 == a) = none := by simpa [List.find?_eq_none] using h
  rw [Memory.read_writeAll, unnamed, Option.map_none, Option.none_or]

/-- Several stores leave at an address the byte of the last one that names it. -/
theorem Memory.read_writeAll_last (m : Memory) (older : List Host.Cell) {newer : List Host.Cell} {a : Nat} (b : Byte)
    (h : ∀ p ∈ newer, p.1 ≠ a) : (m.writeAll (older ++ (a, b) :: newer)).read a = some b := by
  have inOrder : m.writeAll (older ++ (a, b) :: newer) = ((m.writeAll older).write a b).writeAll newer := by
    simp [Memory.writeAll]
  rw [inOrder, Memory.read_writeAll_of_forall_ne _ h, Memory.read_write, if_pos rfl]

/-- Settles O53: a store is one write of host memory, a store in flight is only kept, and landing is the writes of those
kept, in order. -/
theorem hostStoresAreSeen : Obligations.HostStoresAreSeen := by
  unfold Obligations.HostStoresAreSeen
  refine ⟨fun s addr b rest hbus => ?_, fun s addr b rest hbus => ?_, fun s => ⟨rfl, fun a h => ?_, ?_⟩⟩
  · refine ⟨{ s with bus := rest, hostMem := s.hostMem.write addr.toNat b }, by rw [step, hbus]; rfl, rfl, ?_, ?_⟩
    · exact (Memory.read_write ..).trans (if_pos rfl)
    · exact fun a ha => (Memory.read_write ..).trans (if_neg ha)
  · rw [step, hbus]; rfl
  · exact Memory.read_writeAll_of_forall_ne _ h
  · intro older newer a b hracing h
    rw [State.landStores_hostMem, hracing]
    exact Memory.read_writeAll_last _ older b h

end Sys2Proof.Machine
end

section
/-! PROOFS. The decoder accepts exactly the CMD words of the opcode map, and these are exactly the legal words
(spec/30_encoding.md R74, R75); an illegal word's completion (spec/60_exceptions.md R202). -/

namespace Sys2Proof

/-- Every command's CMD word is legal and decodes to it: the family Encoding, as one statement. -/
theorem Laws.Encoding.all (i : Instr) : Laws.Encoding.Statement i := by
  cases i with
  | ctxCreate => exact ctxCreate
  | ctxDestroy => exact ctxDestroy
  | msgCreateText => exact msgCreateText
  | msgCreateBuf => exact msgCreateBuf
  | msgDelete => exact msgDelete
  | msgPreprocess => exact msgPreprocess
  | msgDigest => exact msgDigest
  | msgGetState => exact msgGetState
  | msgGetBitlen => exact msgGetBitlen
  | msgGetPadlen => exact msgGetPadlen
  | msgReadRaw => exact msgReadRaw
  | msgReadPadded => exact msgReadPadded
  | msgReadDigest => exact msgReadDigest
  | ctxMsgCount => exact ctxMsgCount
  | ctxMsgAt => exact ctxMsgAt

@[simp] theorem decode_encode (i : Instr) : decode (encode i) = .ok i := by
  obtain ⟨-, -, hdecode⟩ := Laws.Encoding.all i
  exact hdecode

@[simp] theorem wordLegal_encode (i : Instr) : wordLegal (encode i) = true := by
  obtain ⟨-, hlegal, -⟩ := Laws.Encoding.all i
  exact hlegal

/-- Each row of the opcode map holds its command's CMD word under the full mask (R74). -/
theorem eq_opcodeRow_of_mem_opcodeMap : ∀ r ∈ opcodeMap, r = opcodeRow (encode r.instr) r.instr := by
  decide

/-- A row selects a word only if it is the CMD word of the row's command: the full mask drops no bit (R74). -/
theorem eq_encode_of_opcodeSelect {v : Word} {r : OpcodeRow} (h : opcodeSelect v = some r) : v = encode r.instr := by
  unfold opcodeSelect at h
  have hmatch := List.find?_some h
  rw [beq_iff_eq, eq_opcodeRow_of_mem_opcodeMap r (List.mem_of_find?_eq_some h)] at hmatch
  calc v = v &&& BitVec.allOnes 32 := BitVec.and_allOnes.symm
    _ = encode r.instr := hmatch

/-- Only a command's own CMD word decodes to it. -/
theorem eq_encode_of_decode {v : Word} {i : Instr} (h : decode v = .ok i) : v = encode i := by
  unfold decode at h
  cases hsel : opcodeSelect v with
  | none => rw [hsel] at h; cases h
  | some r => rw [hsel] at h; cases h; exact eq_encode_of_opcodeSelect hsel

theorem decode_eq_ok_iff (v : Word) (i : Instr) : decode v = .ok i ↔ v = encode i :=
  ⟨eq_encode_of_decode, fun h => h ▸ decode_encode i⟩

/-- Settles O2: a selecting row's word is the whole word, and each command's own word decodes to it. -/
theorem decodeAcceptsExactlyTheOpcodeMap : Obligations.DecodeAcceptsExactlyTheOpcodeMap := by
  unfold Obligations.DecodeAcceptsExactlyTheOpcodeMap
  exact ⟨decode_eq_ok_iff, rfl⟩

/-- A legal word is a number from 1 to 15: its OPCODE, with nothing in RSVD (R75). -/
theorem toNat_of_wordLegal {v : Word} (h : wordLegal v = true) : 1 ≤ v.toNat ∧ v.toNat ≤ 0x0F := by
  have hv := v.isLt
  simp only [wordLegal, wordReservedZero, wordOpcodeAssigned, Bool.and_eq_true, beq_iff_eq, decide_eq_true_eq,
    ← BitVec.toNat_inj, BitVec.extractLsb'_toNat, Nat.shiftRight_eq_div_pow,
    BitVec.toNat_ofNat] at h
  omega

/-- No opcode from 1 to 15 is left out of the map (R74). -/
theorem exists_encode_eq_ofNat : ∀ k < 0x10, 1 ≤ k → ∃ r ∈ opcodeMap, encode r.instr = BitVec.ofNat 32 k := by
  decide

/-- The legal words of R75 are the CMD words of R74. -/
theorem wordLegal_iff_exists_encode (v : Word) : wordLegal v = true ↔ ∃ i, v = encode i := by
  refine ⟨fun h => ?_, ?_⟩
  · obtain ⟨hpos, hle⟩ := toNat_of_wordLegal h
    obtain ⟨r, -, hr⟩ := exists_encode_eq_ofNat v.toNat (Nat.lt_succ_of_le hle) hpos
    exact ⟨r.instr, by rw [hr, BitVec.ofNat_toNat, BitVec.setWidth_eq]⟩
  · rintro ⟨i, rfl⟩
    exact wordLegal_encode i

/-- A word decodes to no command exactly when it is not legal. -/
theorem exists_decode_error_iff (v : Word) : (∃ e, decode v = .error e) ↔ wordLegal v = false := by
  rw [← Bool.not_eq_true, wordLegal_iff_exists_encode]
  cases h : decode v with
  | ok i => simpa using ⟨i, eq_encode_of_decode h⟩
  | error e =>
    refine ⟨fun _ => ?_, fun _ => ⟨e, rfl⟩⟩
    rintro ⟨i, rfl⟩
    cases h.symm.trans (decode_encode i)

/-- The three causes of R75. -/
theorem wordLegal_eq_false_iff (v : Word) : wordLegal v = false ↔
    v.extractLsb' 8 24 ≠ 0 ∨ v.extractLsb' 0 8 = 0 ∨ 0x10 ≤ (v.extractLsb' 0 8).toNat := by
  have hzero : v.extractLsb' 0 8 = 0 ↔ (v.extractLsb' 0 8).toNat = 0 := BitVec.toNat_inj.symm
  rw [wordLegal, wordReservedZero, wordOpcodeAssigned, hzero, Bool.and_eq_false_iff, beq_eq_false_iff_ne,
    Bool.and_eq_false_iff, decide_eq_false_iff_not, decide_eq_false_iff_not]
  exact or_congr_right (by omega)

namespace Machine

/-- The completion of an illegal word: STATUS as the number of spec/95_test_vectors.md L2-C, RESULT 0 (R202). -/
theorem State.complete_illegal (s : State) :
    s.complete .illegal 0 = { s with status := if s.ctxLive then 0x104 else 0x004, result := 0 } := by
  have hstatus (live : Bool) : statusWord .illegal live = if live then 0x104 else 0x004 := by
    cases live <;> decide
  rw [State.complete, hstatus]

/-- A word that decodes to no command completes with IllegalCommandError (R75, R202). -/
theorem runWord_of_decode_error {v : Word} {e : DecodeError} (h : decode v = .error e) (s : State) :
    runWord v s = .next (s.complete .illegal 0) := by
  obtain ⟨i, hi, -⟩ | ⟨-, hrun⟩ := runWord_cases v s
  · cases h.symm.trans hi
  · exact hrun

end Machine

/-- Settles O3: the words that decode to no command are the ones that are not legal, and each runs the command ILLEGAL. -/
theorem illegalWordsCompleteWithIllegalCommandError : Obligations.IllegalWordsCompleteWithIllegalCommandError := by
  unfold Obligations.IllegalWordsCompleteWithIllegalCommandError
  intro v
  rw [← wordLegal_eq_false_iff, ← exists_decode_error_iff]
  refine ⟨Iff.rfl, ?_⟩
  rintro ⟨e, he⟩ s
  rw [Machine.runWord_of_decode_error he, Machine.State.complete_illegal]

/-- Settles O1: eight words of the opcode map, the bounds of the assigned opcodes, and a word with a reserved bit. -/
theorem opcodeWordsDecode : Obligations.OpcodeWordsDecode := by
  unfold Obligations.OpcodeWordsDecode
  decide

end Sys2Proof
end

section
/-! PROOFS. A host script's accesses as steps of the machine, and the expansion of a pseudo-instruction as its command
(spec/30_encoding.md R77, R78). -/

namespace Sys2Proof.Machine

/-- The command word of a command runs that command (R74, R213). -/
theorem runWord_encode (i : Instr) (s : State) : runWord (encode i) s = exec i s := by
  obtain ⟨j, hj, hrun⟩ | ⟨⟨e, he⟩, -⟩ := runWord_cases (encode i) s
  · cases hj.symm.trans (decode_encode i)
    exact hrun
  · cases he.symm.trans (decode_encode i)

/-- A run goes on from a step's next state. -/
theorem run_succ_of_step (M : Host.Core) (n : Nat) {s t : M.State} (h : M.step s = .next t) :
    M.run (n + 1) s = M.run n t := by
  rw [Host.Core.run, h]

theorem run_one (M : Host.Core) (s : M.State) : M.run 1 s = M.step s := by
  rw [Host.Core.run]
  cases M.step s <;> rfl

/-- No command sequence but the agent's own is in progress. -/
def OwnSequence (agent : Nat) (ses : Option Session) : Prop := ∀ x, ses = some x → x.agent = agent

/-- An agent does not intrude on its own sequence (R236). -/
theorem State.intrudedOn_of_ownSequence {s : State} {agent : Nat} (h : OwnSequence agent s.session) :
    s.intrudedOn agent = none := by
  unfold State.intrudedOn
  cases hses : s.session with
  | none => rfl
  | some x => simp [h x hses]

/-- A register write leaves no sequence but the writer's in progress (R236). -/
theorem OwnSequence.sessionAfter {agent : Nat} {old : Option Session} (h : OwnSequence agent old) (r : Reg) :
    OwnSequence agent (sessionAfter agent r old) := by
  intro x hx
  cases r with
  | cmd | argA | argB | handle => cases hx; rfl
  | status | result | reserved => exact h x hx

/-- The register a `wr` statement names. -/
def ScriptWrite.reg : ScriptWrite → Reg
  | .cmd => .cmd
  | .argA => .argA
  | .argB => .argB
  | .handle => .handle

/-- The access of a `wr` statement reaches the whole register it names (R77). -/
theorem ScriptWrite.selectReg_access (r : ScriptWrite) :
    selectReg (BitVec.ofNat 8 r.access.1) r.access.2 = some (r.reg, .whole) := by
  cases r <;> rfl

theorem ScriptWrite.access_lt (r : ScriptWrite) : r.access.1 < 0x100 := by
  cases r <;> decide

/-- An aligned block does not wrap around the address space (R9, R20). -/
theorem devBase_add_toNat {cfg : Config} (halign : cfg.devBase.toNat % 0x100 = 0) {off : Nat} (hoff : off < 0x100) :
    (cfg.devBase + BitVec.ofNat 64 off).toNat = cfg.devBase.toNat + off := by
  have := cfg.devBase.isLt
  rw [BitVec.toNat_add, BitVec.toNat_ofNat]
  omega

/-- A `wr` statement is a write of the register it names, by an agent inside nobody else's sequence (R77, R236). -/
theorem step_wr {s : State} {agent : Nat} {r : ScriptWrite} {v : Dword} {rest : List HostEvent}
    (halign : s.cfg.devBase.toNat % 0x100 = 0) (hown : OwnSequence agent s.session)
    (hbus : s.bus = (Statement.wr r v).event s.cfg agent :: rest) :
    step s = ({ s with bus := rest, session := sessionAfter agent r.reg s.session } : State).writeEffect r.reg .whole v :=
  step_write_register r.access_lt (devBase_add_toNat halign r.access_lt) hbus
    (State.intrudedOn_of_ownSequence (s := { s with bus := rest }) hown) r.selectReg_access

/-- A `wr CMD` statement runs the command of its word, then lands the stores in flight (R213, R237). -/
theorem step_wrCmd {s : State} {agent : Nat} {i : Instr} {rest : List HostEvent}
    (halign : s.cfg.devBase.toNat % 0x100 = 0) (hown : OwnSequence agent s.session)
    (hbus : s.bus = (wrCmd (encode i)).event s.cfg agent :: rest) :
    step s = mapNext State.landStores (exec i { s with bus := rest, session := some ⟨agent, false, true⟩ }) := by
  rw [step_wr halign hown hbus]
  change mapNext State.landStores (runWord (((encode i).setWidth 64).setWidth 32) _) = _
  rw [BitVec.setWidth_setWidth_of_le _ (by decide), BitVec.setWidth_eq, runWord_encode]
  rfl

/-- A statement of a script that writes an operand register (R77). -/
def Statement.IsOperandWrite : Statement → Prop
  | .wr r _ => r ≠ .cmd
  | .rd _ => False

/-- The operand register a statement writes, written. -/
def Statement.writeOperand (s : State) : Statement → State
  | .wr r v => s.writeReg r.reg .whole v
  | .rd _ => s

/-- Writing an operand touches neither the events to come nor the sequence, and depends on neither. -/
theorem Statement.writeOperand_bus_session (s : State) (st : Statement) (bus : List HostEvent) (ses : Option Session) :
    st.writeOperand { s with bus := bus, session := ses } =
      { st.writeOperand s with bus := bus, session := ses } := by
  cases st with
  | wr r v => cases r <;> rfl
  | rd r => rfl

/-- A statement that writes an operand is one step that does so (R77). -/
theorem step_writeOperand {s : State} {agent : Nat} {st : Statement} {rest : List HostEvent}
    (halign : s.cfg.devBase.toNat % 0x100 = 0) (hown : OwnSequence agent s.session) (hst : st.IsOperandWrite)
    (hbus : s.bus = st.event s.cfg agent :: rest) :
    ∃ ses, OwnSequence agent ses ∧ step s = .next { st.writeOperand s with bus := rest, session := ses } := by
  cases st with
  | rd r => exact hst.elim
  | wr r v =>
    have hreg : r.reg ≠ .cmd := by
      cases r with
      | cmd => exact absurd rfl hst
      | argA | argB | handle => decide
    refine ⟨sessionAfter agent r.reg s.session, hown.sessionAfter r.reg, ?_⟩
    rw [step_wr halign hown hbus, writeEffect_eq_writeReg _ hreg]
    exact congrArg _ (Statement.writeOperand_bus_session s (.wr r v) rest _)

/-- Operand writes and then a CMD write, all by one agent, run the command on the operands written (R77, R213): by induction
on the operand writes, each of which leaves the rest of the script to come and the sequence the agent's. -/
theorem run_operandWrites_wrCmd {agent : Nat} {i : Instr} {rest : List HostEvent} (sts : List Statement)
    (hsts : ∀ st ∈ sts, st.IsOperandWrite) {s : State} (halign : s.cfg.devBase.toNat % 0x100 = 0)
    (hown : OwnSequence agent s.session)
    (hbus : s.bus = (sts ++ [wrCmd (encode i)]).map (fun st => st.event s.cfg agent) ++ rest) :
    Sys2Proof.core.run (sts ++ [wrCmd (encode i)]).length s = mapNext State.landStores
      (exec i (sts.foldl Statement.writeOperand { s with bus := rest, session := some ⟨agent, false, true⟩ })) := by
  induction sts generalizing s with
  | nil => exact (run_one Sys2Proof.core s).trans (step_wrCmd halign hown hbus)
  | cons st sts ih =>
    obtain ⟨ses, hses, hstep⟩ := step_writeOperand halign hown (hsts st List.mem_cons_self) hbus
    have hcfg : (st.writeOperand s).cfg = s.cfg := by
      cases st with
      | wr r v => exact State.writeReg_cfg ..
      | rd r => rfl
    rw [List.foldl_cons, Statement.writeOperand_bus_session]
    refine (run_succ_of_step Sys2Proof.core _ hstep).trans (ih (fun u hu => hsts u (List.mem_cons_of_mem _ hu)) ?_ hses ?_)
    · exact hcfg ▸ halign
    · exact hcfg ▸ rfl

/-- The statements of an expansion before its last, the CMD write (R78). -/
def Pseudo.operandWrites (p : Pseudo) : List Statement := p.expand.dropLast

/-- An expansion ends in the CMD write of the command's word (R74, R78). -/
theorem Pseudo.expand_eq (p : Pseudo) : p.expand = p.operandWrites ++ [wrCmd (encode p.command)] := by
  cases p <;> rfl

theorem Pseudo.isOperandWrite_of_mem (p : Pseudo) : ∀ st ∈ p.operandWrites, st.IsOperandWrite := by
  cases p <;> simp [Pseudo.operandWrites, Pseudo.expand, wrHandle, Statement.IsOperandWrite]

/-- The statements before the CMD write put each operand into the register R73 reads it from. -/
theorem Pseudo.operands_eq (p : Pseudo) (s : State) : p.operands s = p.operandWrites.foldl Statement.writeOperand s := by
  have narrow (h : Handle) : (h.setWidth 64).setWidth 32 = h := by
    rw [BitVec.setWidth_setWidth_of_le _ (by decide), BitVec.setWidth_eq]
  cases p <;> simp [Pseudo.operands, Pseudo.operandWrites, Pseudo.expand, wrHandle, Statement.writeOperand,
    ScriptWrite.reg, State.writeReg, Part.put, narrow]

/-- Settles O54: an expansion is operand writes and the command's CMD write, so its run is the command on those operands. -/
theorem pseudoInstructionsAreTheirCommands : Obligations.PseudoInstructionsAreTheirCommands := by
  unfold Obligations.PseudoInstructionsAreTheirCommands
  intro s p agent rest halign hown hbus
  rw [p.expand_eq] at hbus ⊢
  rw [p.operands_eq]
  exact run_operandWrites_wrCmd p.operandWrites p.isOperandWrite_of_mem halign hown hbus

end Sys2Proof.Machine
end

section
/-! PROOFS. What the completions, the common checks and the registering of a Message answer, with STATUS as the numbers of
spec/95_test_vectors.md L2-C (spec/60_exceptions.md R200, R203, R204, spec/40_context.md R102, R103). -/

namespace Sys2Proof.Machine

/-- A command that succeeds while a Context is live. -/
theorem succeed_of_live {s : State} (hlive : s.ctxLive = true) (r : Dword) :
    succeed r s = .next { s with status := 0x100, result := r } := by
  have status : statusWord .ok true = 0x100 := by decide
  rw [succeed, State.complete, hlive, status]

/-- A command that fails while a Context is live: its code in STATUS.ERR (R201, R210). -/
theorem raise_of_live {s : State} (hlive : s.ctxLive = true) {e : ErrCode} {w : Word} (hw : statusWord e true = w) :
    raise e s = .next { s with status := w, result := 0 } := by
  rw [raise, State.complete, hlive, hw]

theorem raise_alloc_of_live {s : State} (hlive : s.ctxLive = true) :
    raise .alloc s = .next { s with status := 0x101, result := 0 } :=
  raise_of_live hlive (by decide)

/-- The NoContext check while no Context is live (R203). -/
theorem withContext_of_dead {s : State} (hdead : s.ctxLive = false) (k : Result) :
    withContext s k = .next { s with status := 0x005, result := 0 } := by
  have status : statusWord .noContext false = 0x005 := by decide
  rw [withContext_dead s k hdead, raise, State.complete, hdead, status]

/-- A command that begins with the NoContext check and the lookup of HANDLE makes the common checks (R209). -/
theorem handleChecks_of_exec_eq {i : Instr} (k : State → Message → Result)
    (hexec : ∀ s, exec i s = withContext s (withMessage s (k s))) : handleChecks i := by
  refine fun s => ⟨fun hdead => ?_, fun hlive hhandle => ?_⟩
  · rw [hexec, withContext_of_dead hdead]
  · rw [hexec, withContext_live s _ hlive, withMessage_none _ ((s.msg?_eq_none_iff _).2 hhandle)]
    exact raise_of_live hlive (by decide)

/-- The registering end of a create command while a Context is live (R103). -/
theorem createMessage_of_live {s : State} (hlive : s.ctxLive = true) (raw : List Byte) (L : Dword) :
    createMessage raw L s = .next { s with
      messages := s.messages ++ [(s.nextHandle.setWidth 32, { bitLength := L, raw := raw, phase := .raw })]
      nextHandle := s.nextHandle + 1
      status := 0x100
      result := (s.nextHandle.setWidth 32).setWidth 64 } :=
  succeed_of_live (s := s.register raw L) hlive _

/-- A slot and a handle for one more Message (R102 items 1 and 2). -/
theorem State.slotFree_and_handleLeft_iff (s : State) :
    (s.slotFree && s.handleLeft) = true ↔ s.messages.length < s.cfg.maxMessages ∧ s.nextHandle.toNat < 2 ^ 32 := by
  simp only [State.slotFree, State.handleLeft, Bool.and_eq_true, decide_eq_true_eq]

/-- `CanAllocMsg(L)` (R102). -/
theorem State.canAllocMsg_iff (s : State) (L : Nat) :
    s.canAllocMsg L = true ↔ s.messages.length < s.cfg.maxMessages ∧ s.nextHandle.toNat < 2 ^ 32 ∧
      max 1 ((L + 7) / 8) ≤ s.cfg.maxRawBytes := by
  rw [State.canAllocMsg, Bool.and_eq_true, s.slotFree_and_handleLeft_iff, decide_eq_true_eq, and_assoc]
  rfl

end Sys2Proof.Machine
end

section
/-! PROOFS. The Context commands and MSG_DELETE: the whole next state (spec/40_context.md R105, R106, R109, R111, R112). -/

namespace Sys2Proof.Machine

/-- Settles O7, along the two branches of the command. -/
theorem ctxCreateResult : Obligations.CtxCreateResult := by
  unfold Obligations.CtxCreateResult
  refine ⟨rfl, fun s => ⟨fun hlive => ?_, fun hdead => ?_⟩⟩ <;> change execCtxCreate s = _
  · rw [execCtxCreate, if_pos hlive, raise_alloc_of_live hlive]
  · rw [execCtxCreate, if_neg (by simp [hdead]), succeed_of_live rfl]

/-- Settles O8: the loop of the command leaves no Message, and the Context goes with it. -/
theorem ctxDestroyReleasesEverything : Obligations.CtxDestroyReleasesEverything := by
  unfold Obligations.CtxDestroyReleasesEverything
  refine ⟨rfl, fun s => ⟨fun hlive => ⟨_, ?_, rfl, fun _ => rfl, rfl⟩, fun hdead => withContext_of_dead hdead _⟩⟩
  have status : statusWord .ok false = 0x000 := by decide
  change execCtxDestroy s = _
  rw [execCtxDestroy, withContext_live s _ hlive, releaseAll_eq_nil, succeed, State.complete, status]

/-- Settles O9: the command counts `order`, which the invariant bounds. -/
theorem ctxMsgCountResult : Obligations.CtxMsgCountResult := by
  unfold Obligations.CtxMsgCountResult
  refine ⟨rfl, fun s => ⟨fun hlive => ?_, State.Inv.capacity, fun hdead => withContext_of_dead hdead _⟩⟩
  change execCtxMsgCount s = _
  rw [execCtxMsgCount, withContext_live s _ hlive, succeed_of_live hlive]

/-- CTX_MSG_AT with its operand in ARG_A (R73, R112). -/
theorem execCtxMsgAt_eq (s : State) : execCtxMsgAt s = withContext s
    (match s.order[s.argA.toNat]? with
      | some h => succeed (h.setWidth 64) s
      | none => raise .range s) := rfl

/-- Settles O10: a position below the length of `order` has a handle, any other has none. -/
theorem ctxMsgAtResult : Obligations.CtxMsgAtResult := by
  unfold Obligations.CtxMsgAtResult
  refine ⟨rfl, fun s => ⟨fun hlive hlt => ?_, fun hlive hge => ?_, fun hdead => withContext_of_dead hdead _⟩⟩ <;>
    change execCtxMsgAt s = _
  · rw [execCtxMsgAt_eq, withContext_live s _ hlive, List.getElem?_eq_getElem hlt]
    exact succeed_of_live hlive _
  · rw [execCtxMsgAt_eq, withContext_live s _ hlive, List.getElem?_eq_none hge]
    exact raise_of_live hlive (by decide)

theorem handleChecks_msgDelete : handleChecks .msgDelete :=
  handleChecks_of_exec_eq (fun s _ => succeed 0 (s.dropMsg s.handle)) fun _ => rfl

/-- MSG_DELETE of a live handle (R109). -/
theorem exec_msgDelete_of_mem {s : State} (hlive : s.ctxLive = true) (hmem : s.handle ∈ s.order) :
    exec .msgDelete s = .next { s.dropMsg s.handle with status := 0x100, result := 0 } := by
  obtain ⟨m, hm⟩ := Option.isSome_iff_exists.1 ((s.msg?_isSome_iff s.handle).2 hmem)
  change execMsgDelete s = _
  rw [execMsgDelete, withContext_live s _ hlive, withMessage_some _ hm]
  exact succeed_of_live (s := s.dropMsg s.handle) hlive 0

/-- Settles O18: the handle is dropped from the collection, so the second deletion looks up a handle that is not live. -/
theorem msgDeleteResult : Obligations.MsgDeleteResult := by
  unfold Obligations.MsgDeleteResult
  refine ⟨rfl, handleChecks_msgDelete, fun s hlive hmem => ⟨_, exec_msgDelete_of_mem hlive hmem, ?_⟩⟩
  have order : (s.dropMsg s.handle).order = s.order.filter fun h => h ≠ s.handle := s.dropMsg_order s.handle
  have records (h : Handle) : (s.dropMsg s.handle).msg? h = if h = s.handle then none else s.msg? h :=
    s.dropMsg_msg? s.handle h
  have gone : s.handle ∉ (s.dropMsg s.handle).order := by simp [order]
  refine ⟨order, (records s.handle).trans (if_pos rfl), fun h hne => (records h).trans (if_neg hne), rfl, ?_⟩
  exact (handleChecks_msgDelete _).2 hlive gone

end Sys2Proof.Machine
end

section
/-! PROOFS. `RawStore` byte by byte and bit by bit (spec/40_context.md R101, spec/00_scope.md R12). -/

namespace Sys2Proof.Machine

/-- A byte of the first n, or 0 past them. -/
theorem getD_take (src : List Byte) (n j : Nat) : (src.take n).getD j 0 = if j < n then src.getD j 0 else 0 := by
  rw [List.getD_eq_getElem?_getD, List.getD_eq_getElem?_getD, List.getElem?_take]
  split <;> rfl

/-- A byte masked in its place, where there is one; past the end both sides are 0. -/
theorem getD_set_and (bs : List Byte) (n j : Nat) (mask : Byte) :
    (bs.set n (bs.getD n 0 &&& mask)).getD j 0 = if j = n then bs.getD n 0 &&& mask else bs.getD j 0 := by
  simp only [List.getD_eq_getElem?_getD, List.getElem?_set]
  by_cases hj : j = n
  · subst hj
    by_cases hlt : j < bs.length <;> simp [hlt]
  · simp [hj, Ne.symm hj]

/-- `RawStore` of whole bytes, one or more, keeps them (R101). -/
theorem rawStore_of_whole (src : List Byte) {L : Nat} (h0 : L ≠ 0) (h8 : L % 8 = 0) :
    rawStore src L = src.take (L / 8) := by
  have nbytes : (L + 7) / 8 = L / 8 := by omega
  simp only [rawStore, if_neg h0, if_pos h8, nbytes]

/-- `RawStore` keeps a text, and puts one zero byte for the empty one (R101, R107). -/
theorem rawStore_text (txt : List Byte) : rawStore txt (8 * txt.length) = if txt = [] then [0] else txt := by
  cases txt with
  | nil => rfl
  | cons b bs =>
    rw [rawStore_of_whole _ (by simp) (Nat.mul_mod_right ..), Nat.mul_div_cancel_left _ (by decide), List.take_length,
      if_neg (by simp)]

/-- `RawStore` of a message with bits in a last byte of its own: that byte is masked (R101). -/
theorem rawStore_of_partial (src : List Byte) {L : Nat} (h8 : L % 8 ≠ 0) :
    rawStore src L = (src.take (L / 8 + 1)).set (L / 8)
      ((src.take (L / 8 + 1)).getD (L / 8) 0 &&& (0xFF#8 <<< (8 - L % 8))) := by
  have nbytes : (L + 7) / 8 = L / 8 + 1 := by omega
  have pos : L ≠ 0 := by omega
  simp only [rawStore, if_neg pos, if_neg h8, nbytes, Nat.add_sub_cancel]

/-- The bytes of `RawStore`: the whole bytes of the message, then the byte with its last bits, masked, then none. Where the
message ends in a whole byte, and for L = 0, the mask is 0 (R101). -/
theorem rawStore_getD (src : List Byte) (L j : Nat) :
    (rawStore src L).getD j 0 =
      if j < L / 8 then src.getD j 0 else if j = L / 8 then src.getD j 0 &&& (0xFF#8 <<< (8 - L % 8)) else 0 := by
  by_cases h8 : L % 8 = 0
  · have clear : src.getD j 0 &&& (0xFF#8 <<< (8 - L % 8)) = 0 := by rw [h8]; exact BitVec.and_zero
    rw [clear, ite_self]
    by_cases h0 : L = 0
    · subst h0
      rw [rawStore, if_pos rfl, if_neg (Nat.not_lt_zero _)]
      cases j <;> rfl
    · rw [rawStore_of_whole src h0 h8, getD_take]
  · rw [rawStore_of_partial src h8, getD_set_and, getD_take, getD_take]
    by_cases heq : j = L / 8
    · simp [heq]
    · rw [if_neg heq, if_neg heq]
      exact if_congr (by omega) rfl rfl

/-- The mask of `RawStore` keeps message bits 0 to r - 1 of the byte (R12, R101). -/
theorem rawMask_getLsbD : ∀ r < 8, ∀ k < 8, (0xFF#8 <<< (8 - r)).getLsbD (7 - k) = decide (k < r) := by
  decide

/-- Message bit i of `RawStore` is that of the source below L, and 0 from L on (R12, R101). -/
theorem messageBit_rawStore {src : List Byte} {L : Nat} (i : Nat) :
    messageBit (rawStore src L) i = (decide (i < L) && messageBit src i) := by
  have mod (n : Nat) : n % 8 < 8 := Nat.mod_lt n (by omega)
  rw [messageBit, messageBit, rawStore_getD]
  split
  · next hlt => rw [decide_eq_true (show i < L by omega), Bool.true_and]
  split
  · next heq =>
    rw [BitVec.getLsbD_and, rawMask_getLsbD _ (mod L) _ (mod i), Bool.and_comm,
      decide_eq_decide.2 (show i % 8 < L % 8 ↔ i < L by omega)]
  · rw [decide_eq_false (show ¬ i < L by omega)]
    simp

/-- Settles O35 by the length of `RawStore` and its bits. -/
theorem rawStoreKeepsExactlyTheMessageBits : Obligations.RawStoreKeepsExactlyTheMessageBits := by
  unfold Obligations.RawStoreKeepsExactlyTheMessageBits
  intro src L hsrc
  refine ⟨rawStore_length src L hsrc, fun i hi => ?_, fun i hi => ?_⟩
  · rw [messageBit_rawStore, decide_eq_true hi, Bool.true_and]
  · rw [messageBit_rawStore, decide_eq_false (Nat.not_lt.2 hi), Bool.false_and]

end Sys2Proof.Machine
end

section
/-! PROOFS. The create commands: the whole next state and the causes of AllocationError (spec/40_context.md R102, R107,
R108, spec/20_memory.md R56). -/

namespace Sys2Proof.Machine

/-- A buffer that stands in admitted memory is read (R55, R56). -/
theorem State.memRead_eq_ok (s : State) (r : Bool) (addr : Dword) (src : List Byte)
    (h : ∀ i, ∀ hi : i < src.length, s.hostByte r addr i = some src[i]) :
    s.memRead r addr src.length 0 = .ok src := by
  rw [s.memRead_of_hostByte r addr src.length 0 (fun k => src.getD k 0) fun k hk => by
    rw [Nat.zero_add, h k hk, List.getD_eq_getElem src 0 hk]]
  refine congrArg _ (List.ext_getElem (by simp) fun k hk hk' => ?_)
  rw [List.getElem_map, List.getElem_range, List.getD_eq_getElem src 0 hk']

/-- The scan of a text ends at its 0x00, behind its nonzero bytes (R107). -/
theorem State.scanText_eq_text (s : State) (r : Bool) (addr : Dword) {n : Nat} {txt : List Byte} (hn : txt.length < n)
    (h : ∀ i, ∀ hi : i < txt.length, s.hostByte r addr i = some txt[i]) (h0 : ∀ b ∈ txt, b ≠ 0)
    (hend : s.hostByte r addr txt.length = some 0) : s.scanText r addr n 0 = .text txt := by
  have passed := s.scanText_append r addr n 0 txt hn.le (by simpa using h) h0
  obtain ⟨m, hm⟩ : ∃ m, n - txt.length = m + 1 := ⟨n - txt.length - 1, by omega⟩
  rw [Nat.zero_add, hm, State.scanText, hend] at passed
  simpa using passed

/-- The scan of nonzero bytes alone finds no end (R107). -/
theorem State.scanText_eq_unterminated (s : State) (r : Bool) (addr : Dword) (n : Nat)
    (h : ∀ j < n, ∃ b, s.hostByte r addr j = some b ∧ b ≠ 0) : s.scanText r addr n 0 = .unterminated := by
  choose b hb h0 using h
  have passed := s.scanText_append r addr n 0 (List.ofFn fun j : Fin n => b j j.isLt) (by simp)
    (fun j hj => by simpa using hb j (by simpa using hj)) (List.forall_mem_ofFn_iff.2 fun j => h0 j j.isLt)
  rw [List.length_ofFn, Nat.sub_self] at passed
  exact passed.trans (Scan.foldr_push_unterminated _)

/-- A store in flight past the 0x00 of a text does not race with it (R237). -/
theorem State.textRaced_of_textAt {s : State} {txt : List Byte} (h : textAt s txt) : s.textRaced s.argA = false := by
  obtain ⟨hraced, hlen, hne, hbytes, hend⟩ := h
  rw [State.textRaced, s.textReads_of_end s.argA _ txt.length (Nat.lt_succ_of_le hlen) (fun j hj => ?_) (.inr hend)]
  · exact hraced
  · exact ⟨_, hbytes j hj, hne _ (List.getElem_mem hj)⟩

/-- The scan finds the text at ARG_A. -/
theorem State.scanText_of_textAt {s : State} {txt : List Byte} (h : textAt s txt) :
    s.scanText false s.argA (s.cfg.maxRawBytes + 1) 0 = .text txt := by
  obtain ⟨-, hlen, hne, hbytes, hend⟩ := h
  exact s.scanText_eq_text false s.argA (Nat.lt_succ_of_le hlen)
    (fun i hi => (s.hostByte_unraced ..).trans (hbytes i hi)) hne ((s.hostByte_unraced ..).trans hend)

/-- Settles O11: the scan finds the text, no store in flight races with it, and `RawStore` keeps its bytes. -/
theorem msgCreateTextResult : Obligations.MsgCreateTextResult := by
  unfold Obligations.MsgCreateTextResult
  intro s txt hlive hslot hleft htext
  change execMsgCreateText s = _
  rw [execMsgCreateText_eq, withContext_live s _ hlive, if_pos (s.slotFree_and_handleLeft_iff.2 ⟨hslot, hleft⟩),
    State.textRaced_of_textAt htext, State.scanText_of_textAt htext, ← rawStore_text]
  exact createMessage_of_live hlive _ _

/-- MSG_CREATE_TEXT without a slot or a handle reads nothing (R107). -/
theorem execMsgCreateText_of_full {s : State} (hlive : s.ctxLive = true)
    (hfull : ¬ (s.slotFree && s.handleLeft) = true) :
    execMsgCreateText s = .next { s with status := 0x101, result := 0 } := by
  rw [execMsgCreateText_eq, withContext_live s _ hlive, if_neg hfull, raise_alloc_of_live hlive]

/-- Settles O12: without a slot or a handle nothing is read, and otherwise a scan without a race finds no 0x00. -/
theorem msgCreateTextAllocationError : Obligations.MsgCreateTextAllocationError := by
  unfold Obligations.MsgCreateTextAllocationError
  intro s hlive
  refine ⟨fun hfull => ?_, fun hraced hbytes => ?_⟩ <;> change execMsgCreateText s = _
  · exact execMsgCreateText_of_full hlive (by rw [s.slotFree_and_handleLeft_iff]; omega)
  by_cases hcap : (s.slotFree && s.handleLeft) = true
  · have unraced : s.textRaced s.argA = false := by
      rw [← Bool.not_eq_true] at hraced ⊢
      exact fun h => hraced (s.raced_mono _ _ _ (s.textReads_le ..) h)
    have scan := s.scanText_eq_unterminated false s.argA (s.cfg.maxRawBytes + 1) fun j hj => by
      rw [State.hostByte_unraced]
      exact hbytes j (Nat.le_of_lt_succ hj)
    rw [execMsgCreateText_eq, withContext_live s _ hlive, if_pos hcap, unraced, scan]
    exact raise_alloc_of_live hlive
  · exact execMsgCreateText_of_full hlive hcap

/-- Settles O14: the buffer is read without a race, and registered through `RawStore`. -/
theorem msgCreateBufResult : Obligations.MsgCreateBufResult := by
  unfold Obligations.MsgCreateBufResult
  intro s src hlive hslot hleft hfit hraced hlen hbytes
  have read := s.memRead_eq_ok false s.argA src fun i hi => (s.hostByte_unraced ..).trans (hbytes i hi)
  rw [hlen] at read
  change execMsgCreateBuf s = _
  rw [execMsgCreateBuf_eq, withContext_live s _ hlive, if_pos ((s.canAllocMsg_iff _).2 ⟨hslot, hleft, hfit⟩), hraced, read]
  exact createMessage_of_live hlive _ _

/-- MSG_CREATE_BUF with the capacity for its Message answers no AllocationError: it is stuck or succeeds (R108). -/
theorem execMsgCreateBuf_status {s t : State} (hlive : s.ctxLive = true) (hcap : s.canAllocMsg s.argB.toNat = true)
    (h : execMsgCreateBuf s = .next t) : t.status = 0x100 := by
  rw [execMsgCreateBuf_eq, withContext_live s _ hlive, if_pos hcap] at h
  split at h
  · cases h
  · rw [createMessage_of_live (by simpa using hlive)] at h
    cases h
    rfl

/-- Settles O15: without capacity the command raises AllocationError, and with it no completion has that STATUS. -/
theorem msgCreateBufAllocationError : Obligations.MsgCreateBufAllocationError := by
  unfold Obligations.MsgCreateBufAllocationError
  intro s hlive
  have short : ¬ s.canAllocMsg s.argB.toNat = true ↔ (s.cfg.maxMessages ≤ s.messages.length ∨
      2 ^ 32 ≤ s.nextHandle.toNat ∨ s.cfg.maxRawBytes < max 1 ((s.argB.toNat + 7) / 8)) := by
    rw [s.canAllocMsg_iff]; omega
  rw [← short]
  change execMsgCreateBuf s = _ ↔ _
  refine ⟨fun h hcap => ?_, fun hshort => ?_⟩
  · have status : (0x101 : Word) = 0x100 := execMsgCreateBuf_status hlive hcap h
    exact absurd status (by decide)
  · rw [execMsgCreateBuf_eq, withContext_live s _ hlive, if_neg hshort, raise_alloc_of_live hlive]

end Sys2Proof.Machine
end

section
/-! PROOFS. Which records a command leaves alone (spec/40_context.md R103, R109). -/

namespace Sys2Proof.Machine

/-- Registering leaves the record of a live handle (R103). -/
theorem State.register_msg?_of_mem {s : State} {h : Handle} (hmem : h ∈ s.order) (raw : List Byte) (L : Dword) :
    (s.register raw L).msg? h = s.msg? h := by
  obtain ⟨m, hm⟩ := Option.isSome_iff_exists.1 ((s.msg?_isSome_iff h).2 hmem)
  rw [State.register_msg?, hm, Option.some_or]

/-- Settles O32, case by case along what each command can answer: a new handle is put behind the live ones, and a record is
replaced or dropped under HANDLE alone. -/
theorem otherMessagesAreUntouched : Obligations.OtherMessagesAreUntouched := by
  unfold Obligations.OtherMessagesAreUntouched
  intro i s t h hcreate hdestroy hexec hmem hne
  have spent (raced : Bool) (n : Nat) : h ∈ (s.spendFree raced n).order := by rwa [State.spendFree_order]
  have readBack (hi : i ∈ [Instr.msgGetState, .msgGetBitlen, .msgGetPadlen, .msgReadRaw, .msgReadPadded,
      .msgReadDigest, .ctxMsgCount, .ctxMsgAt]) : t.msg? h = s.msg? h := by
    obtain ⟨e, r, hr, -⟩ := readBack_next i s hi
    cases hr.symm.trans hexec
    rfl
  cases i with
  | ctxCreate => exact absurd rfl hcreate
  | ctxDestroy => exact absurd rfl hdestroy
  | msgCreateText =>
    obtain ⟨e, n, -, rfl⟩ | ⟨bytes, n, -, -, -, -, rfl⟩ := execMsgCreateText_next hexec
    · rw [State.complete_msg?, State.spendFree_msg?]
    · rw [State.complete_msg?, State.register_msg?_of_mem (spent ..), State.spendFree_msg?]
  | msgCreateBuf =>
    obtain ⟨e, -, rfl⟩ | ⟨src, -, -, -, rfl⟩ := execMsgCreateBuf_next hexec
    · rfl
    · rw [State.complete_msg?, State.register_msg?_of_mem (spent ..), State.spendFree_msg?]
  | msgDelete =>
    obtain ⟨e, -, rfl⟩ | ⟨-, -, rfl⟩ := execMsgDelete_next hexec
    · rfl
    · rw [State.complete_msg?, State.dropMsg_msg?, if_neg hne]
  | msgPreprocess =>
    obtain ⟨e, rfl⟩ | ⟨m, -, -, -, -, rfl⟩ := execMsgPreprocess_next hexec
    · rfl
    · rw [State.complete_msg?, State.setMsg_msg?, if_neg hne]
  | msgDigest =>
    obtain ⟨e, rfl⟩ | ⟨m, P, buf, -, -, -, rfl⟩ := execMsgDigest_next hexec
    · rfl
    · rw [State.complete_msg?, State.setMsg_msg?, if_neg hne]; rfl
  | msgGetState | msgGetBitlen | msgGetPadlen | msgReadRaw | msgReadPadded | msgReadDigest | ctxMsgCount | ctxMsgAt =>
    exact readBack (by decide)

end Sys2Proof.Machine
end

section
/-! PROOFS. The padded length, and the padded buffer bit by bit (spec/41_preprocess.md R121, R122, spec/00_scope.md R12). -/

namespace Sys2Proof.Machine

/-- The padded length in chunks: one more than the whole chunks of L + 64 bits (R121). -/
theorem padLen_eq (L : Nat) : padLen L = 512 * ((L + 64) / 512 + 1) := by
  rw [padLen, show L + 65 + 511 = L + 64 + 512 by omega, Nat.add_div_right _ (by decide)]

/-- The padded buffer is a whole number of bytes (R121). -/
theorem padBytes_mul_eight (L : Nat) : padBytes L * 8 = padLen L := by
  rw [padBytes, padLen_eq]
  omega

/-- Settles O36 by the closed form: the chunk count is the quotient of L + 64 by 512, plus one. -/
theorem padLenIsTheSmallestMultiple : Obligations.PadLenIsTheSmallestMultiple := by
  unfold Obligations.PadLenIsTheSmallestMultiple
  intro L
  have closed := padLen_eq L
  exact ⟨by omega, by omega, fun n hmul hge => by omega, closed, by omega, padBytes_mul_eight L⟩

/-- A message bit of the bytes before, or of those behind (R12). -/
theorem messageBit_append (xs ys : List Byte) (i : Nat) :
    messageBit (xs ++ ys) i =
      if i < 8 * xs.length then messageBit xs i else messageBit ys (i - 8 * xs.length) := by
  simp only [messageBit]
  split
  · next hlt => rw [List.getD_append _ _ _ _ (by omega)]
  · next hge =>
    rw [List.getD_append_right _ _ _ _ (by omega), show i / 8 - xs.length = (i - 8 * xs.length) / 8 by omega,
      show i % 8 = (i - 8 * xs.length) % 8 by omega]

/-- A message bit of the first n bytes, or 0 past them (R12). -/
theorem messageBit_take (bytes : List Byte) (n i : Nat) :
    messageBit (bytes.take n) i = (decide (i < 8 * n) && messageBit bytes i) := by
  rw [messageBit, messageBit, getD_take]
  split
  · next hlt => rw [decide_eq_true (show i < 8 * n by omega), Bool.true_and]
  · next hge => rw [decide_eq_false (show ¬ i < 8 * n by omega), Bool.false_and]; exact BitVec.getLsbD_zero

/-- Zero bytes hold zero bits. -/
theorem messageBit_replicate_zero (n i : Nat) : messageBit (List.replicate n 0) i = false := by
  rw [messageBit, List.getD_eq_getElem?_getD, List.getElem?_replicate]
  split <;> exact BitVec.getLsbD_zero

/-- Steps 2 and 3 of `Pad` put the content bits in front of zeros (R122). -/
theorem messageBit_padContent {raw : List Byte} {L : Nat} (hlen : raw.length = rawBytes L)
    (hzero : ∀ i, L ≤ i → messageBit raw i = false) (i : Nat) :
    messageBit (padContent raw L) i = messageBit raw i := by
  have content : (raw.take ((L + 7) / 8)).length = (L + 7) / 8 := by
    rw [List.length_take, hlen, rawBytes]; omega
  rw [padContent, messageBit_append, messageBit_take, messageBit_replicate_zero, content]
  split
  · next hlt => rw [decide_eq_true hlt, Bool.true_and]
  · next hge => exact (hzero i (by omega)).symm

/-- The mark of `Pad` is message bit r of its byte alone (R12, R122). -/
theorem padMark_getLsbD : ∀ r < 8, ∀ k < 8, (0x80#8 >>> r).getLsbD (7 - k) = decide (k = r) := by
  decide

/-- Step 4 of `Pad` sets message bit L and no other (R122). -/
theorem messageBit_padMark {buf : List Byte} {L : Nat} (hL : L / 8 < buf.length) (i : Nat) :
    messageBit (padMark buf L) i = (messageBit buf i || decide (i = L)) := by
  have mod (n : Nat) : n % 8 < 8 := Nat.mod_lt n (by omega)
  simp only [messageBit, padMark, List.getD_eq_getElem?_getD, List.getElem?_set]
  by_cases hi : L / 8 = i / 8
  · rw [if_pos hi, if_pos hL, Option.getD_some, BitVec.getLsbD_or, padMark_getLsbD _ (mod L) _ (mod i), hi,
      decide_eq_decide.2 (show i % 8 = L % 8 ↔ i = L by omega)]
  · rw [if_neg hi, decide_eq_false (show ¬ i = L by rintro rfl; exact hi rfl), Bool.or_false]

/-- Message bit i of `BE64(L)`: the length, most significant bit first (R14, R122). -/
theorem messageBit_be64 (L : Nat) {i : Nat} (hi : i < 64) : messageBit (be64 L) i = L.testBit (63 - i) := by
  have byte : (be64 L).getD (i / 8) 0 = BitVec.ofNat 8 (L >>> (8 * (7 - i / 8))) := by
    simp [be64, List.getD_eq_getElem?_getD, show i / 8 < 8 by omega]
  rw [messageBit, byte, BitVec.getLsbD_ofNat, decide_eq_true (show 7 - i % 8 < 8 by omega), Bool.true_and,
    Nat.testBit_shiftRight, show 8 * (7 - i / 8) + (7 - i % 8) = 63 - i by omega]

/-- The padded buffer bit by bit: the content and the mark, then in the last 64 bits the length (R122). -/
theorem messageBit_pad {raw : List Byte} {L : Nat} (hlen : raw.length = rawBytes L)
    (hzero : ∀ i, L ≤ i → messageBit raw i = false) (i : Nat) :
    messageBit (pad raw L) i =
      if i < padLen L - 64 then messageBit raw i || decide (i = L) else messageBit (be64 L) (i - (padLen L - 64)) := by
  have bytes := padBytes_mul_eight L
  have buffer := padContent_length raw L hlen
  have room := (padBytes_ge L).1
  have front : ((padMark (padContent raw L) L).take (padBytes L - 8)).length = padBytes L - 8 := by
    rw [List.length_take, padMark_length, buffer]; omega
  rw [pad, padLength, messageBit_append, front, messageBit_take, messageBit_padMark (by omega),
    messageBit_padContent hlen hzero, show 8 * (padBytes L - 8) = padLen L - 64 by omega]
  split
  · next hlt => rw [decide_eq_true hlt, Bool.true_and]
  · rfl

/-- Settles O37: in front of the length stand the content and the mark, and the content is 0 from bit L on. That L
fits 64 bits is what makes the last 64 bits all of it; bit by bit they are those of any L. -/
theorem padIsContentOneZerosLength : Obligations.PadIsContentOneZerosLength := by
  unfold Obligations.PadIsContentOneZerosLength
  intro raw L _ hlen hzero
  have bit := messageBit_pad hlen hzero
  have closed := padLen_eq L
  refine ⟨pad_length raw L hlen, fun i hi => ?_, ?_, fun i hlt hfront => ?_, fun i hi => ?_⟩
  · rw [bit, if_pos (by omega), decide_eq_false hi.ne, Bool.or_false]
  · rw [bit, if_pos (by omega), decide_eq_true rfl, Bool.or_true]
  · rw [bit, if_pos hfront, hzero i hlt.le, decide_eq_false hlt.ne', Bool.or_false]
  · rw [bit, if_neg (by omega), Nat.add_sub_cancel_left, messageBit_be64 L hi]

end Sys2Proof.Machine
end

section
/-! PROOFS. MSG_PREPROCESS: what it answers for a record in each state; and that it and MSG_DIGEST are idempotent
(spec/41_preprocess.md R123, R125, spec/42_digest.md R153). -/

namespace Sys2Proof.Machine

/-- The command begins with the common checks (R209). -/
theorem handleChecks_msgPreprocess : handleChecks .msgPreprocess :=
  handleChecks_of_exec_eq (i := .msgPreprocess) _ fun s => (rfl : execMsgPreprocess s = _)

/-- A Raw Message is padded where the padded buffer fits (R123). -/
theorem exec_msgPreprocess_of_raw {s : State} {m : Message} (hlive : s.ctxLive = true)
    (hm : s.msg? s.handle = some m) (hraw : m.phase = .raw) :
    exec .msgPreprocess s =
      if padBytes m.bitLength.toNat ≤ s.cfg.maxPadBytes then
        succeed 0 (s.setMsg s.handle ⟨m.bitLength, m.raw,
          .preprocessed (padLen m.bitLength.toNat) (pad m.raw m.bitLength.toNat)⟩)
      else raise .alloc s := by
  change execMsgPreprocess s = _
  rw [execMsgPreprocess, withContext_live s _ hlive, withMessage_some _ hm, hraw]
  rfl

/-- A Message that is no longer Raw is left as it is, with success (R123, R125). -/
theorem exec_msgPreprocess_of_ne_raw {s : State} {m : Message} (hlive : s.ctxLive = true)
    (hm : s.msg? s.handle = some m) (hne : m.phase ≠ .raw) : exec .msgPreprocess s = succeed 0 s := by
  change execMsgPreprocess s = _
  rw [execMsgPreprocess, withContext_live s _ hlive, withMessage_some _ hm]
  cases hphase : m.phase with
  | raw => exact absurd hphase hne
  | preprocessed P buf => rfl
  | digested P buf d => rfl

/-- A Digested Message is left as it is, with success (R153). -/
theorem exec_msgDigest_of_digested {s : State} {m : Message} {P : Nat} {buf : List Byte} {d : Vector Byte 32}
    (hlive : s.ctxLive = true) (hm : s.msg? s.handle = some m) (hphase : m.phase = .digested P buf d) :
    exec .msgDigest s = succeed 0 s := by
  change execMsgDigest s = _
  rw [execMsgDigest, withContext_live s _ hlive, withMessage_some _ hm, hphase]

/-- A record put under a live handle is found there. -/
theorem State.setMsg_msg?_self {s : State} {h : Handle} {m m' : Message} (hm : s.msg? h = some m) :
    (s.setMsg h m').msg? h = some m' := by
  rw [State.setMsg_msg?, if_pos rfl, hm, Option.map_some]

/-- Settles O19 by the state of the record, and for a Raw one by its capacity. -/
theorem msgPreprocessResult : Obligations.MsgPreprocessResult := by
  unfold Obligations.MsgPreprocessResult
  refine ⟨rfl, handleChecks_msgPreprocess, fun s m hlive hm => ⟨fun hraw hfit => ?_, fun hraw hbig => ?_, fun hne => ?_⟩⟩
  · rw [exec_msgPreprocess_of_raw hlive hm hraw, if_pos hfit]
    refine ⟨_, succeed_of_live (by exact hlive) 0, s.setMsg_msg?_self hm, fun h hne => ?_, s.setMsg_order .., rfl⟩
    exact (s.setMsg_msg? ..).trans (if_neg hne)
  · rw [exec_msgPreprocess_of_raw hlive hm hraw, if_neg (by omega), raise_alloc_of_live hlive]
  · rw [exec_msgPreprocess_of_ne_raw hlive hm hne, succeed_of_live hlive]

/-- The command does not look at the STATUS and RESULT an earlier one left: completion writes both anew (R200). -/
theorem exec_msgPreprocess_complete (s : State) (e : ErrCode) (r : Dword) :
    exec .msgPreprocess (s.complete e r) = exec .msgPreprocess s := rfl

/-- The same of MSG_DIGEST. -/
theorem exec_msgDigest_complete (s : State) (e : ErrCode) (r : Dword) :
    exec .msgDigest (s.complete e r) = exec .msgDigest s := rfl

/-- Settles O38, by cases on what each command can answer: a completion alone, whatever its code, is answered again, and in the
record the command advanced the second run finds nothing left to do. -/
theorem preprocessAndDigestAreIdempotent : Obligations.PreprocessAndDigestAreIdempotent := by
  unfold Obligations.PreprocessAndDigestAreIdempotent
  rintro i s t (rfl | rfl) hexec -
  · obtain ⟨e, rfl⟩ | ⟨m, hlive, hm, -, -, rfl⟩ := execMsgPreprocess_next hexec <;> rw [exec_msgPreprocess_complete]
    · exact hexec
    · exact exec_msgPreprocess_of_ne_raw hlive (State.setMsg_msg?_self hm) (by simp)
  · obtain ⟨e, rfl⟩ | ⟨m, P, buf, hlive, hm, -, rfl⟩ := execMsgDigest_next hexec <;> rw [exec_msgDigest_complete]
    · exact hexec
    · exact exec_msgDigest_of_digested hlive (State.setMsg_msg?_self hm) rfl

end Sys2Proof.Machine
end

section
/-! PROOFS. The word functions bit by bit, and the serialised hash byte by byte (spec/42_digest.md R140 to R145, R151,
spec/00_scope.md R13). -/

namespace Sys2Proof.Machine

/-- A rotated word bit by bit (R13). -/
theorem rotr_getLsbD (x : Word) {n i : Nat} (hn : n ≤ 32) (hi : i < 32) :
    (rotr x n).getLsbD i = x.getLsbD ((i + n) % 32) := by
  rw [rotr, BitVec.getLsbD_or, BitVec.getLsbD_ushiftRight, BitVec.getLsbD_shiftLeft, decide_eq_true hi, Bool.true_and]
  by_cases hwrap : i + n < 32
  · rw [Nat.mod_eq_of_lt hwrap, decide_eq_true (show i < 32 - n by omega), Nat.add_comm n i]
    simp
  · rw [BitVec.getLsbD_of_ge x (n + i) (by omega), decide_eq_false (show ¬ i < 32 - n by omega),
      show i - (32 - n) = (i + n) % 32 by omega]
    simp

/-- A shifted word bit by bit: zeros come in at the top (R13). -/
theorem ushiftRight_getLsbD_of_width (x : Word) (n i : Nat) :
    (x >>> n).getLsbD i = (decide (i + n < 32) && x.getLsbD (i + n)) := by
  rw [BitVec.getLsbD_ushiftRight, Nat.add_comm n i]
  by_cases hin : i + n < 32
  · rw [decide_eq_true hin, Bool.true_and]
  · rw [decide_eq_false hin, BitVec.getLsbD_of_ge x _ (by omega), Bool.false_and]

/-- Settles O39: each bit of the result is a function of the three bits in its place, and has its value for all eight
choices of them. -/
theorem chSelectsAndMajVotes : Obligations.ChSelectsAndMajVotes := by
  unfold Obligations.ChSelectsAndMajVotes
  intro x y z i hi
  have select : ∀ p q r : Bool, ((p && q) ^^ (!p && r)) = if p then q else r := by decide
  have majority : ∀ p q r : Bool,
      ((p && q) ^^ (p && r) ^^ (q && r)) = decide (2 ≤ p.toNat + q.toNat + r.toNat) := by decide
  constructor
  · rw [ch, BitVec.getLsbD_xor, BitVec.getLsbD_and, BitVec.getLsbD_and, BitVec.getLsbD_not, decide_eq_true hi,
      Bool.true_and, select]
  · rw [maj, BitVec.getLsbD_xor, BitVec.getLsbD_xor, BitVec.getLsbD_and, BitVec.getLsbD_and, BitVec.getLsbD_and,
      majority]

/-- Settles O40: each function is an exclusive or of rotated words and at most one shifted word, and so is each bit of it, by
`rotr_getLsbD` and `ushiftRight_getLsbD_of_width`. -/
theorem sigmaFunctionsBitByBit : Obligations.SigmaFunctionsBitByBit := by
  unfold Obligations.SigmaFunctionsBitByBit
  intro x i hi
  refine ⟨?_, ?_, ?_, ?_⟩ <;>
    simp (disch := omega) only [bigSigma0, bigSigma1, smallSigma0, smallSigma1, BitVec.getLsbD_xor, rotr_getLsbD,
      ushiftRight_getLsbD_of_width]

/-- Settles O44: byte 4i + k is byte k of word i, by `(4i + k) / 4 = i` and `(4i + k) mod 4 = k`. -/
theorem serialisationIsBigEndian : Obligations.SerialisationIsBigEndian := by
  unfold Obligations.SerialisationIsBigEndian
  intro H i k hi hk
  have word : (4 * i + k) / 4 = i := by omega
  have byte : (4 * i + k) % 4 = k := by omega
  simp only [serialise, Vector.getElem_ofFn, BitVec.toNat_setWidth, BitVec.toNat_ushiftRight, word, byte]

end Sys2Proof.Machine
end

section
/-! PROOFS. The engine register by register: schedule, rounds, fold, and the chunks in order (spec/42_digest.md R146 to
R150, R152). -/

namespace Sys2Proof.Machine

/-- The schedule load's words are still there after the expansion (R147). -/
theorem Engine.schedule_w_of_lt (B : List Byte) (e : Engine) {t : Nat} (ht : t < 16) :
    (e.schedule B).w t = chunkWord B t := by
  rw [Engine.schedule, Engine.expandSchedule_w_stable _ 0 48 t (by omega) (by omega) ht, Engine.expandSchedule,
    Engine.loadSchedule_w _ _ _ _ (by omega), if_pos ht]

/-- The word an expansion step writes, from the words before it (R148). -/
theorem Engine.expandSchedule_succ_w (e : Engine) {n : Nat} (hn : n < 48) :
    (e.expandSchedule (n + 1)).w (16 + n) =
      smallSigma1 ((e.expandSchedule n).w (16 + n - 2)) + (e.expandSchedule n).w (16 + n - 7) +
      smallSigma0 ((e.expandSchedule n).w (16 + n - 15)) + (e.expandSchedule n).w (16 + n - 16) := by
  rw [Engine.expandSchedule, Engine.expandWord, Engine.setW_w _ _ _ _ (by omega), if_pos rfl]

/-- Settles O41: a loaded word is never rewritten, and an expanded one is the recurrence's, whose operands are final when it
is written. -/
theorem scheduleWordsAreTheRules : Obligations.ScheduleWordsAreTheRules := by
  unfold Obligations.ScheduleWordsAreTheRules
  intro B e _
  refine ⟨fun t ht => Engine.schedule_w_of_lt B e ht, fun t hge hlt => ?_⟩
  obtain ⟨n, rfl⟩ := Nat.exists_eq_add_of_le hge
  have final {m k : Nat} (hm : m ≤ 48) (hk : k < 16 + m) :
      (e.schedule B).w k = ((e.loadSchedule B 16).expandSchedule m).w k := by
    rw [Engine.schedule, Engine.expandSchedule_w_stable _ m 48 k hm (by omega) hk]
  have written := final (m := n + 1) (k := 16 + n) (by omega) (by omega)
  have earlier (k : Nat) (hk : k < 16 + n) := final (m := n) (by omega) hk
  rw [written, Engine.expandSchedule_succ_w _ (by omega), earlier (16 + n - 2) (by omega),
    earlier (16 + n - 7) (by omega), earlier (16 + n - 15) (by omega), earlier (16 + n - 16) (by omega)]

/-- Settles O42: T1 and T2 are the round's own temporaries, and every register is as its definition has it. -/
theorem roundRule : Obligations.RoundRule := by
  unfold Obligations.RoundRule
  exact fun e t _ => ⟨(e.round t).T1, (e.round t).T2, rfl, rfl, rfl, rfl, rfl, rfl, rfl⟩

/-- The engine as the rounds of chunk c find it: the chunk's schedule, and the working words from the running hash. -/
def Engine.loaded (buf : List Byte) (e : Engine) (c : Nat) : Engine :=
  (({ e with c := c } : Engine).schedule (chunkOf buf c)).loadWorking

/-- A chunk is the rounds and the fold of the loaded engine (R152). -/
theorem Engine.chunk_eq_loaded (buf : List Byte) (e : Engine) (c : Nat) :
    e.chunk buf c = (e.loaded buf c).compress.fold := rfl

@[simp] theorem Engine.loaded_H (buf : List Byte) (e : Engine) (c : Nat) : (e.loaded buf c).H = e.H := by
  simp only [Engine.loaded, Engine.loadWorking, Engine.schedule_H]

@[simp] theorem Engine.loaded_c (buf : List Byte) (e : Engine) (c : Nat) : (e.loaded buf c).c = c := by
  simp only [Engine.loaded, Engine.loadWorking, Engine.schedule_c]

/-- The working words are those of the running hash (R152). -/
theorem Engine.loaded_work (buf : List Byte) (e : Engine) (c : Nat) :
    (e.loaded buf c).work = ⟨e.H[0], e.H[1], e.H[2], e.H[3], e.H[4], e.H[5], e.H[6], e.H[7]⟩ := by
  simp only [Engine.loaded, Engine.loadWorking, Engine.schedule_H]

/-- The schedule is the chunk's, whatever the chunk counter held (R147, R148). -/
theorem Engine.loaded_w (buf : List Byte) (e : Engine) (c t : Nat) :
    (e.loaded buf c).w t = (e.schedule (chunkOf buf c)).w t :=
  congrArg (fun W : Vector Word 64 => W[t]?.getD 0) (Engine.schedule_W_congr _ _ _)

/-- The fold adds the working words to the running hash, word by word (R150). -/
theorem Engine.fold_H (e : Engine) :
    e.fold.H = #v[e.H[0] + e.work.a, e.H[1] + e.work.b, e.H[2] + e.work.c, e.H[3] + e.work.d,
      e.H[4] + e.work.e, e.H[5] + e.work.f, e.H[6] + e.work.g, e.H[7] + e.work.h] := rfl

/-- The running hash after a chunk (R150). -/
theorem Engine.chunk_H (buf : List Byte) (e : Engine) (c : Nat) :
    (e.chunk buf c).H =
      #v[e.H[0] + (e.loaded buf c).compress.work.a, e.H[1] + (e.loaded buf c).compress.work.b,
         e.H[2] + (e.loaded buf c).compress.work.c, e.H[3] + (e.loaded buf c).compress.work.d,
         e.H[4] + (e.loaded buf c).compress.work.e, e.H[5] + (e.loaded buf c).compress.work.f,
         e.H[6] + (e.loaded buf c).compress.work.g, e.H[7] + (e.loaded buf c).compress.work.h] := by
  rw [Engine.chunk_eq_loaded, Engine.fold_H, Engine.compress_H, Engine.loaded_H]

/-- Settles O43: the loaded engine has the words the rounds start from, and they leave the running hash for the fold to add
to. -/
theorem chunkFoldsIntoTheRunningHash : Obligations.ChunkFoldsIntoTheRunningHash := by
  unfold Obligations.ChunkFoldsIntoTheRunningHash
  exact fun buf e c => ⟨e.loaded buf c, by rw [Engine.compress], e.loaded_work buf c,
    fun t _ => e.loaded_w buf c t, e.chunk_H buf c⟩

/-- Settles O45: a chunk makes equal the engines that agree on the running hash, and that the run itself starts. -/
theorem engineRegistersAreWrittenBeforeRead : Obligations.EngineRegistersAreWrittenBeforeRead := by
  unfold Obligations.EngineRegistersAreWrittenBeforeRead
  refine fun buf n e e' => ⟨Engine.run_H_congr buf n e e', fun hn => ?_⟩
  obtain ⟨n, rfl⟩ := Nat.exists_eq_add_of_le' hn
  rw [Engine.run_succ, Engine.run_succ, Engine.chunk_congr buf n (Engine.run_H_congr buf n e e')]

/-- A chunk that ends inside the buffer has no byte of what follows (R146). -/
theorem chunkOf_append {buf : List Byte} {c : Nat} (hc : 64 * (c + 1) ≤ buf.length) (buf' : List Byte) :
    chunkOf (buf ++ buf') c = chunkOf buf c := by
  rw [chunkOf, chunkOf, List.drop_append_of_le_length (by omega),
    List.take_append_of_le_length (by rw [List.length_drop]; omega)]

/-- What follows the chunks a run processes has no effect on it (R146). -/
theorem Engine.run_append {buf : List Byte} {n : Nat} (hn : 64 * n ≤ buf.length) (buf' : List Byte) (e : Engine) :
    e.run (buf ++ buf') n = e.run buf n := by
  induction n with
  | zero => rfl
  | succ n ih =>
    rw [Engine.run_succ, Engine.run_succ, ih (by omega), Engine.chunk, Engine.chunk, chunkOf_append hn]

/-- A chunk leaves the chunk counter at its own number (R33). -/
@[simp] theorem Engine.chunk_c (buf : List Byte) (e : Engine) (c : Nat) : (e.chunk buf c).c = c := by
  rw [Engine.chunk_eq_loaded, Engine.fold, Engine.compress_c, Engine.loaded_c]

/-- Settles O46: the first n chunks end where the buffer does, and the next one starts from what they left. -/
theorem chunksAreASequentialReduction : Obligations.ChunksAreASequentialReduction := by
  unfold Obligations.ChunksAreASequentialReduction
  intro buf buf' n e hlen
  have unaffected : e.run (buf ++ buf') n = e.run buf n := Engine.run_append hlen.ge buf' e
  refine ⟨unaffected, ?_, ?_⟩
  · rw [Engine.run_succ, unaffected]
  · rw [Engine.run_succ, Engine.chunk_c]

end Sys2Proof.Machine
end

section
/-! PROOFS. MSG_DIGEST: what it answers for a record in each state (spec/42_digest.md R153). -/

namespace Sys2Proof.Machine

/-- The command begins with the common checks (R209). -/
theorem handleChecks_msgDigest : handleChecks .msgDigest :=
  handleChecks_of_exec_eq (i := .msgDigest) _ fun s => (rfl : execMsgDigest s = _)

/-- A Raw Message gives NotPreprocessedError (R153). -/
theorem exec_msgDigest_of_raw {s : State} {m : Message} (hlive : s.ctxLive = true) (hm : s.msg? s.handle = some m)
    (hraw : m.phase = .raw) : exec .msgDigest s = raise .notPreprocessed s := by
  change execMsgDigest s = _
  rw [execMsgDigest, withContext_live s _ hlive, withMessage_some _ hm, hraw]

/-- A Preprocessed Message is digested by the engine, from whatever its registers hold (R153). -/
theorem exec_msgDigest_of_preprocessed {s : State} {m : Message} {P : Nat} {buf : List Byte} (hlive : s.ctxLive = true)
    (hm : s.msg? s.handle = some m) (hphase : m.phase = .preprocessed P buf) :
    exec .msgDigest s = succeed 0 (({ s with engine := s.engine.run buf (P / 512) } : State).setMsg s.handle
      { m with phase := .digested P buf (serialise (s.engine.run buf (P / 512)).H) }) := by
  change execMsgDigest s = _
  rw [execMsgDigest, withContext_live s _ hlive, withMessage_some _ hm, hphase]
  rfl

/-- Settles O20 by the state of the record: a buffer of whole chunks is run through the engine from its first to its last. -/
theorem msgDigestResult : Obligations.MsgDigestResult := by
  unfold Obligations.MsgDigestResult
  refine ⟨rfl, handleChecks_msgDigest, fun s m hlive hm => ⟨fun P buf hphase hlen hP => ?_, fun hraw => ?_,
    fun P buf d hphase => ?_⟩⟩
  · have digest : serialise (s.engine.run buf (P / 512)).H = sha256Digest buf := by
      rw [sha256Digest_eq_run buf s.engine, show buf.length / 64 = P / 512 by omega]
    rw [exec_msgDigest_of_preprocessed hlive hm hphase, digest]
    refine ⟨_, succeed_of_live (by exact hlive) 0, State.setMsg_msg?_self (by exact hm), fun h hne => ?_,
      State.setMsg_order .., rfl⟩
    exact (State.setMsg_msg? ..).trans (if_neg hne)
  · rw [exec_msgDigest_of_raw hlive hm hraw]
    exact raise_of_live hlive (by decide)
  · rw [exec_msgDigest_of_digested hlive hm hphase, succeed_of_live hlive]

end Sys2Proof.Machine
end

section
/-! PROOFS. MSG_PREPROCESS and MSG_DIGEST as functions of the one record HANDLE names, and Messages of different handles in
either order (spec/42_digest.md R152, spec/60_exceptions.md R219). -/

namespace Sys2Proof.Machine

/-- The record MSG_PREPROCESS puts in the place of one, if it writes any (R123). -/
def Message.afterPreprocess? (cfg : Config) (m : Message) : Option Message :=
  if m.phase = .raw ∧ padBytes m.bitLength.toNat ≤ cfg.maxPadBytes then
    some ⟨m.bitLength, m.raw, .preprocessed (padLen m.bitLength.toNat) (pad m.raw m.bitLength.toNat)⟩
  else none

/-- The record MSG_DIGEST puts in the place of one, if it writes any (R153). -/
def Message.afterDigest? (_cfg : Config) (m : Message) : Option Message :=
  match m.phase with
  | .preprocessed P buf => some { m with phase := .digested P buf (serialise (Engine.atReset.run buf (P / 512)).H) }
  | _ => none

/-- The collection with the record of a handle replaced, if there is a new one. -/
def replaceRecord (h : Handle) (new : Option Message) (l : List (Handle × Message)) : List (Handle × Message) :=
  match new with
  | none => l
  | some m => l.map fun p => if p.1 = h then (h, m) else p

/-- The record of another handle is the one before. -/
theorem lookup_replaceRecord_of_ne {h k : Handle} (hne : k ≠ h) (new : Option Message) (l : List (Handle × Message)) :
    (replaceRecord h new l).lookup k = l.lookup k := by
  cases new with
  | none => rfl
  | some m => exact (lookup_replace l h k m).trans (if_neg hne)

/-- Records of different handles are replaced in either order. -/
theorem replaceRecord_comm {h k : Handle} (hne : h ≠ k) (new new' : Option Message) (l : List (Handle × Message)) :
    replaceRecord k new' (replaceRecord h new l) = replaceRecord h new (replaceRecord k new' l) := by
  cases new with
  | none => rfl
  | some m =>
    cases new' with
    | none => rfl
    | some m' =>
      simp only [replaceRecord, List.map_map]
      refine List.map_congr_left fun p _ => ?_
      by_cases hh : p.1 = h
      · simp [hh, hne]
      · by_cases hk : p.1 = k <;> simp [hh, hk, hne.symm]

/-- What the record under HANDLE becomes when a Context is live: the argument is `Message.afterPreprocess?` or
`Message.afterDigest?`. -/
def State.newRecord (f : Config → Message → Option Message) (s : State) : Option Message :=
  if s.ctxLive then (s.msg? s.handle).bind (f s.cfg) else none

/-- A command that only replaces the record HANDLE names, by a function of that record and the parameters. -/
structure State.Replaces (f : Config → Message → Option Message) (s t : State) : Prop where
  cfg : t.cfg = s.cfg
  ctxLive : t.ctxLive = s.ctxLive
  messages : t.messages = replaceRecord s.handle (s.newRecord f) s.messages

/-- Without a Context, nothing is written under HANDLE (R203). -/
theorem State.newRecord_of_dead (f : Config → Message → Option Message) {s : State} (hdead : s.ctxLive = false) :
    s.newRecord f = none := by
  rw [State.newRecord, hdead]; rfl

/-- Nor is it where HANDLE is not live (R204). -/
theorem State.newRecord_of_not_found (f : Config → Message → Option Message) {s : State} (hm : s.msg? s.handle = none) :
    s.newRecord f = none := by
  rw [State.newRecord, hm, Option.bind_none, ite_self]

theorem State.newRecord_of_found (f : Config → Message → Option Message) {s : State} {m : Message}
    (hlive : s.ctxLive = true) (hm : s.msg? s.handle = some m) : s.newRecord f = f s.cfg m := by
  rw [State.newRecord, if_pos hlive, hm, Option.bind_some]

/-- A completion alone replaces no record. -/
theorem State.replaces_complete {f : Config → Message → Option Message} {s : State} (hnew : s.newRecord f = none)
    (e : ErrCode) (r : Dword) : s.Replaces f (s.complete e r) :=
  ⟨rfl, rfl, by rw [hnew]; rfl⟩

/-- A record written under HANDLE is the one replaced, whatever the engine registers are left at. -/
theorem State.replaces_setMsg {f : Config → Message → Option Message} {s : State} {m' : Message}
    (hnew : s.newRecord f = some m') (engine : Engine) (e : ErrCode) (r : Dword) :
    s.Replaces f ((({ s with engine := engine } : State).setMsg s.handle m').complete e r) :=
  ⟨rfl, rfl, by rw [hnew]; rfl⟩

/-- The common checks replace no record, so the record HANDLE names is all there is to look at (R209). -/
theorem State.replaces_of_found {f : Config → Message → Option Message} {s t : State} {k : Message → Result}
    (h : withContext s (withMessage s k) = .next t)
    (hfound : ∀ m, s.ctxLive = true → s.msg? s.handle = some m → k m = .next t → s.Replaces f t) : s.Replaces f t := by
  obtain ⟨hlive, h⟩ | ⟨hdead, rfl⟩ := withContext_next h
  · obtain ⟨m, hm, h⟩ | ⟨hm, rfl⟩ := withMessage_next h
    · exact hfound m hlive hm h
    · exact State.replaces_complete (State.newRecord_of_not_found f hm) ..
  · exact State.replaces_complete (State.newRecord_of_dead f hdead) ..

/-- MSG_PREPROCESS replaces the record of a Raw Message that fits, and no other (R123). -/
theorem exec_msgPreprocess_replaces {s t : State} (h : exec .msgPreprocess s = .next t) :
    s.Replaces Message.afterPreprocess? t := by
  refine State.replaces_of_found (show execMsgPreprocess s = _ from h) fun m hlive hm _ => ?_
  have new := State.newRecord_of_found Message.afterPreprocess? hlive hm
  rw [Message.afterPreprocess?] at new
  by_cases hraw : m.phase = .raw
  · rw [exec_msgPreprocess_of_raw hlive hm hraw] at h
    by_cases hfit : padBytes m.bitLength.toNat ≤ s.cfg.maxPadBytes
    · rw [if_pos hfit, succeed_next] at h
      rw [if_pos ⟨hraw, hfit⟩] at new
      exact h ▸ State.replaces_setMsg new s.engine .ok 0
    · rw [if_neg hfit, raise_next] at h
      rw [if_neg fun both => hfit both.2] at new
      exact h ▸ State.replaces_complete new .alloc 0
  · rw [exec_msgPreprocess_of_ne_raw hlive hm hraw, succeed_next] at h
    rw [if_neg fun both => hraw both.1] at new
    exact h ▸ State.replaces_complete new .ok 0

/-- MSG_DIGEST replaces the record of a Preprocessed Message, by one that does not depend on the engine registers
(R152, R153). -/
theorem exec_msgDigest_replaces {s t : State} (h : exec .msgDigest s = .next t) : s.Replaces Message.afterDigest? t := by
  refine State.replaces_of_found (show execMsgDigest s = _ from h) fun m hlive hm _ => ?_
  have new := State.newRecord_of_found Message.afterDigest? hlive hm
  rw [Message.afterDigest?] at new
  cases hphase : m.phase with
  | raw =>
    rw [exec_msgDigest_of_raw hlive hm hphase, raise_next] at h
    rw [hphase] at new
    exact h ▸ State.replaces_complete new .notPreprocessed 0
  | preprocessed P buf =>
    rw [exec_msgDigest_of_preprocessed hlive hm hphase, succeed_next] at h
    rw [hphase] at new
    dsimp only at new
    rw [Engine.run_H_congr buf _ Engine.atReset s.engine] at new
    exact h ▸ State.replaces_setMsg new _ .ok 0
  | digested P buf d =>
    rw [exec_msgDigest_of_digested hlive hm hphase, succeed_next] at h
    rw [hphase] at new
    exact h ▸ State.replaces_complete new .ok 0

/-- Each of the two commands replaces the record under HANDLE by a function of it. -/
theorem exists_replaces {i : Instr} (hi : i = .msgPreprocess ∨ i = .msgDigest) :
    ∃ f, ∀ s t, exec i s = .next t → s.Replaces f t := by
  obtain rfl | rfl := hi
  · exact ⟨_, fun _ _ => exec_msgPreprocess_replaces⟩
  · exact ⟨_, fun _ _ => exec_msgDigest_replaces⟩

/-- What a command makes of the record of `k` is the same before and after another command on a different handle. -/
theorem State.Replaces.newRecord_of_ne {f g : Config → Message → Option Message} {s a : State} {h k : Handle}
    (ha : ({ s with handle := h } : State).Replaces f a) (hne : k ≠ h) :
    ({ a with handle := k } : State).newRecord g = ({ s with handle := k } : State).newRecord g := by
  have msg : ({ a with handle := k } : State).msg? k = ({ s with handle := k } : State).msg? k :=
    (congrArg (List.lookup k) ha.messages).trans (lookup_replaceRecord_of_ne hne ..)
  rw [State.newRecord, State.newRecord, msg, ha.cfg, ha.ctxLive]

/-- Settles O47: each command replaces the record of its own handle by a function of that record, the other command leaves
that record alone, and replacements under different handles commute. -/
theorem messageOrderDoesNotMatter : Obligations.MessageOrderDoesNotMatter := by
  unfold Obligations.MessageOrderDoesNotMatter
  intro i j s a b a' b' h k hi hj hne ha hb ha' hb'
  obtain ⟨f, replacesF⟩ := exists_replaces hi
  obtain ⟨g, replacesG⟩ := exists_replaces hj
  have fromF := replacesF _ _ ha
  have fromG := replacesG _ _ ha'
  calc b.messages
    _ = replaceRecord k (({ s with handle := k } : State).newRecord g)
          (replaceRecord h (({ s with handle := h } : State).newRecord f) s.messages) := by
      rw [(replacesG _ _ hb).messages, fromF.newRecord_of_ne hne.symm, fromF.messages]
    _ = replaceRecord h (({ s with handle := h } : State).newRecord f)
          (replaceRecord k (({ s with handle := k } : State).newRecord g) s.messages) := replaceRecord_comm hne ..
    _ = b'.messages := by
      rw [(replacesF _ _ hb').messages, fromG.newRecord_of_ne hne, fromG.messages]

end Sys2Proof.Machine
end

section
/-! PROOFS. The read-back commands: what each answers for a live handle (spec/43_readback.md R170 to R175). -/

namespace Sys2Proof.Machine

/-- A command that makes the common checks goes on with the record of a live handle (R209). -/
theorem withContext_withMessage_of_found {s : State} {m : Message} (hlive : s.ctxLive = true)
    (hm : s.msg? s.handle = some m) (k : Message → Result) : withContext s (withMessage s k) = k m :=
  (withContext_live s _ hlive).trans (withMessage_some k hm)

/-! What each command does with the record HANDLE names, the operand in ARG_A (R72, R73). -/

section
variable {s : State} {m : Message} (hlive : s.ctxLive = true) (hm : s.msg? s.handle = some m)
include hlive hm

theorem exec_msgGetState_of_found : exec .msgGetState s = succeed (m.phase.code.setWidth 64) s :=
  withContext_withMessage_of_found hlive hm _

theorem exec_msgGetBitlen_of_found : exec .msgGetBitlen s = succeed m.bitLength s :=
  withContext_withMessage_of_found hlive hm _

theorem exec_msgGetPadlen_of_raw (hraw : m.phase = .raw) : exec .msgGetPadlen s = raise .notPreprocessed s := by
  change execMsgGetPadlen s = _
  rw [execMsgGetPadlen, withContext_withMessage_of_found hlive hm, hraw]
  rfl

theorem exec_msgGetPadlen_of_padded {P : Nat} {buf : List Byte} (hpad : m.phase.padded? = some (P, buf)) :
    exec .msgGetPadlen s = succeed (zext64 P) s := by
  change execMsgGetPadlen s = _
  rw [execMsgGetPadlen, withContext_withMessage_of_found hlive hm, hpad]

theorem exec_msgReadRaw_of_found : exec .msgReadRaw s =
    if s.argA.toNat < rawBytes m.bitLength.toNat then succeed ((m.raw.getD s.argA.toNat 0).setWidth 64) s
    else raise .range s :=
  withContext_withMessage_of_found hlive hm _

theorem exec_msgReadPadded_of_raw (hraw : m.phase = .raw) : exec .msgReadPadded s = raise .notPreprocessed s := by
  change execMsgReadPadded s = _
  rw [execMsgReadPadded, withContext_withMessage_of_found hlive hm, hraw]
  rfl

theorem exec_msgReadPadded_of_padded {P : Nat} {buf : List Byte} (hpad : m.phase.padded? = some (P, buf)) :
    exec .msgReadPadded s =
      if s.argA.toNat < P / 8 then succeed ((buf.getD s.argA.toNat 0).setWidth 64) s else raise .range s := by
  change execMsgReadPadded s = _
  rw [execMsgReadPadded, withContext_withMessage_of_found hlive hm, hpad]
  rfl

theorem exec_msgReadDigest_of_no_digest (hnone : m.phase.digest? = none) :
    exec .msgReadDigest s = raise .notDigested s := by
  change execMsgReadDigest s = _
  rw [execMsgReadDigest, withContext_withMessage_of_found hlive hm, hnone]

theorem exec_msgReadDigest_of_digest {d : Vector Byte 32} (hsome : m.phase.digest? = some d) :
    exec .msgReadDigest s = match d[s.argA.toNat]? with
      | some b => succeed (b.setWidth 64) s
      | none => raise .range s := by
  change execMsgReadDigest s = _
  rw [execMsgReadDigest, withContext_withMessage_of_found hlive hm, hsome]
  rfl

end

/-- Settles O21: the record is looked up, and its state is its code. -/
theorem msgGetStateResult : Obligations.MsgGetStateResult := by
  unfold Obligations.MsgGetStateResult
  refine ⟨rfl, handleChecks_of_exec_eq (i := .msgGetState) _ fun s => (rfl : execMsgGetState s = _),
    fun s m hlive hm => ?_⟩
  rw [exec_msgGetState_of_found hlive hm, succeed_of_live hlive]
  cases m.phase <;> rfl

/-- The code of success is the only 0 (R201). -/
theorem ErrCode.code_eq_zero_iff (e : ErrCode) : e.code = 0 ↔ e = .ok := by
  cases e <;> decide

/-- A successful MSG_CREATE_TEXT had a Context, a slot and a handle (R102, R203). -/
theorem createText_capacity_of_ok {s t : State} (h : exec .msgCreateText s = .next t) (hok : t.err = 0) :
    s.ctxLive = true ∧ s.slotFree = true ∧ s.handleLeft = true := by
  obtain ⟨e, n, hne, rfl⟩ | ⟨_, _, hlive, hslot, hleft, -, -⟩ := execMsgCreateText_next h
  · have code : e.code = 0 := (statusWord_fields e _).1.symm.trans hok
    exact absurd (e.code_eq_zero_iff.1 code) hne
  · exact ⟨hlive, hslot, hleft⟩

/-- Under the invariant the handle to issue names no Message yet (R29, R30). -/
theorem State.Inv.msg?_newHandle {s : State} (h : s.Inv) (hleft : s.handleLeft = true) : s.msg? s.newHandle = none :=
  (s.msg?_eq_none_iff _).2 fun hmem => (h.lt_newHandle hleft hmem).false

/-- Under the invariant a registered record is the one its handle names (R103). -/
theorem State.Inv.register_msg?_newHandle {s : State} (h : s.Inv) (hleft : s.handleLeft = true) (raw : List Byte)
    (L : Dword) : (s.register raw L).msg? s.newHandle = some ⟨L, raw, .raw⟩ := by
  rw [State.register_msg?, h.msg?_newHandle hleft, Option.none_or, if_pos rfl]

/-- The bit length of a text that fits the raw storage is not truncated (R9, R124). -/
theorem textBitLength_toNat {cfg : Config} (hcfg : cfg.wf = true) {n : Nat} (hn : n ≤ cfg.maxRawBytes) :
    (BitVec.ofNat 64 (8 * n)).toNat = 8 * n := by
  simp only [Config.wf, Bool.and_eq_true, decide_eq_true_eq] at hcfg
  obtain ⟨-, hbound⟩ := hcfg
  rw [BitVec.toNat_ofNat, Nat.mod_eq_of_lt (by omega)]

/-- Settles O22: the record is looked up, and its bit length is the RESULT. After MSG_CREATE_TEXT the handle in RESULT
names the record of the text, since no Message had that handle before. -/
theorem msgGetBitlenResult : Obligations.MsgGetBitlenResult := by
  unfold Obligations.MsgGetBitlenResult
  refine ⟨rfl, handleChecks_of_exec_eq (i := .msgGetBitlen) _ fun s => (rfl : execMsgGetBitlen s = _),
    fun s m hlive hm => ?_, fun s t txt hinv htext hcreate hok => ?_⟩
  · rw [exec_msgGetBitlen_of_found hlive hm, succeed_of_live hlive]
  have ⟨_, hlen, _⟩ := htext
  obtain ⟨hlive, hslot, hleft⟩ := createText_capacity_of_ok hcreate hok
  obtain ⟨hslot', hleft'⟩ := s.slotFree_and_handleLeft_iff.1 (by rw [hslot, hleft]; rfl)
  cases (msgCreateTextResult s txt hlive hslot' hleft' htext).symm.trans hcreate
  have handle : (s.newHandle.setWidth 64).setWidth 32 = s.newHandle := by simp
  have record := hinv.register_msg?_newHandle hleft (if txt = [] then [0] else txt) (BitVec.ofNat 64 (8 * txt.length))
  rw [← handle] at record
  exact ⟨_, (exec_msgGetBitlen_of_found (by exact hlive) (by exact record)).trans
    (succeed_of_live (by exact hlive) _), rfl, textBitLength_toNat hinv.config hlen⟩

/-- MSG_GET_PADLEN of a padded Message: P where 64 bits hold it, and some value otherwise (R172, log entry 22). -/
theorem exec_msgGetPadlen_result {s : State} {m : Message} (hlive : s.ctxLive = true) (hm : s.msg? s.handle = some m)
    {P : Nat} {buf : List Byte} (hpad : m.phase.padded? = some (P, buf)) :
    (P < 2 ^ 64 → exec .msgGetPadlen s = .next { s with status := 0x100, result := BitVec.ofNat 64 P }) ∧
      ∃ value, exec .msgGetPadlen s = .next { s with status := 0x100, result := value } := by
  rw [exec_msgGetPadlen_of_padded hlive hm hpad, succeed_of_live hlive]
  exact ⟨fun hfit => by rw [zext64_of_lt P hfit], _, rfl⟩

/-- Settles O23 by the state of the record; P of a valid record is a number of chunks, one or more. -/
theorem msgGetPadlenResult : Obligations.MsgGetPadlenResult := by
  unfold Obligations.MsgGetPadlenResult
  refine ⟨rfl, handleChecks_of_exec_eq (i := .msgGetPadlen) _ fun s => (rfl : execMsgGetPadlen s = _),
    fun s m hlive hm => ⟨fun hraw => ?_, fun P buf hphase => ?_, fun P buf d hphase => ?_,
      fun hvalid P buf hpad => ?_⟩⟩
  · rw [exec_msgGetPadlen_of_raw hlive hm hraw]
    exact raise_of_live hlive (by decide)
  · exact exec_msgGetPadlen_result hlive hm (buf := buf) (by rw [hphase]; rfl)
  · exact exec_msgGetPadlen_result hlive hm (buf := buf) (by rw [hphase]; rfl)
  · obtain ⟨hP, -, -⟩ := hvalid.padded P buf hpad
    have closed := padLen_eq m.bitLength.toNat
    omega

/-- Settles O24: the index is compared with `RawBytes(L)`, which is 1 for L = 0. -/
theorem msgReadRawResult : Obligations.MsgReadRawResult := by
  unfold Obligations.MsgReadRawResult
  refine ⟨rfl, handleChecks_of_exec_eq (i := .msgReadRaw) _ fun s => (rfl : execMsgReadRaw s = _),
    fun s m hlive hm => ⟨fun hlen hlt => ?_, fun hvalid hL hA => ?_, fun hge => ?_⟩⟩ <;>
    rw [exec_msgReadRaw_of_found hlive hm]
  · have inRange : s.argA.toNat < rawBytes m.bitLength.toNat := hlt.trans_eq hlen
    rw [if_pos inRange, List.getD_eq_getElem _ _ hlt, succeed_of_live hlive]
  · have inRange : s.argA.toNat < rawBytes m.bitLength.toNat := by rw [hA, hL]; decide
    have byte : m.raw.getD s.argA.toNat 0 = 0 := by rw [hvalid.rawEmpty hL, hA]; rfl
    rw [if_pos inRange, byte]
    exact succeed_of_live hlive _
  · have outOfRange : ¬ s.argA.toNat < rawBytes m.bitLength.toNat := Nat.not_lt.2 hge
    rw [if_neg outOfRange]
    exact raise_of_live hlive (by decide)

/-- The last byte of the padded buffer is the low byte of the length (R122). -/
theorem pad_getD_last {raw : List Byte} {L : Nat} (hlen : raw.length = rawBytes L) :
    (pad raw L).getD (padBytes L - 1) 0 = BitVec.ofNat 8 L := by
  have room := (padBytes_ge L).1
  have front : ((padMark (padContent raw L) L).take (padBytes L - 8)).length = padBytes L - 8 := by
    rw [List.length_take, padMark_length, padContent_length raw L hlen]; omega
  rw [pad, padLength, List.getD_append_right _ _ _ _ (by omega), front,
    show padBytes L - 1 - (padBytes L - 8) = 7 by omega]
  rfl

/-- Settles O25 by the state of the record, then the index against P/8. -/
theorem msgReadPaddedResult : Obligations.MsgReadPaddedResult := by
  unfold Obligations.MsgReadPaddedResult
  refine ⟨rfl, handleChecks_of_exec_eq (i := .msgReadPadded) _ fun s => (rfl : execMsgReadPadded s = _),
    fun s m hlive hm => ⟨fun hraw => ?_, fun P buf hpad => ?_⟩⟩
  · rw [exec_msgReadPadded_of_raw hlive hm hraw]
    exact raise_of_live hlive (by decide)
  rw [exec_msgReadPadded_of_padded hlive hm hpad]
  refine ⟨fun hlen hlt => ?_, fun hge => ?_, fun hvalid hlast => ?_⟩
  · rw [if_pos (hlen ▸ hlt), List.getD_eq_getElem _ _ hlt, succeed_of_live hlive]
  · rw [if_neg (Nat.not_lt.2 hge)]
    exact raise_of_live hlive (by decide)
  · obtain ⟨rfl, rfl, -⟩ := hvalid.padded P buf hpad
    have room := (padBytes_ge m.bitLength.toNat).1
    have low : (BitVec.ofNat 8 m.bitLength.toNat).setWidth 64 = BitVec.ofNat 64 (m.bitLength.toNat % 256) := by
      apply BitVec.eq_of_toNat_eq
      simp
    rw [hlast, ← padBytes, if_pos (by omega), pad_getD_last hvalid.rawLength, low, succeed_of_live hlive]

/-- Settles O26 by the state of the record, then the index against the 32 bytes of the digest. -/
theorem msgReadDigestResult : Obligations.MsgReadDigestResult := by
  unfold Obligations.MsgReadDigestResult
  refine ⟨rfl, handleChecks_of_exec_eq (i := .msgReadDigest) _ fun s => (rfl : execMsgReadDigest s = _),
    fun s m hlive hm => ⟨fun hphase => ?_, fun P buf d hphase => ?_⟩⟩
  · have noDigest : m.phase.digest? = none := by
      obtain hraw | ⟨P, buf, hpre⟩ := hphase
      · rw [hraw]; rfl
      · rw [hpre]; rfl
    rw [exec_msgReadDigest_of_no_digest hlive hm noDigest]
    exact raise_of_live hlive (by decide)
  rw [exec_msgReadDigest_of_digest hlive hm (d := d) (by rw [hphase]; rfl)]
  refine ⟨fun hlt => ?_, fun hge => ?_⟩
  · rw [Vector.getElem?_eq_getElem hlt]
    exact succeed_of_live hlive _
  · rw [Vector.getElem?_eq_none hge]
    exact raise_of_live hlive (by decide)

end Sys2Proof.Machine
end

section
/-! PROOFS. How a command ends: with a next state, or stuck at a refused address; and what an error leaves unchanged
(spec/60_exceptions.md R203, R210, R213, R215). -/

namespace Sys2Proof.Machine

/-- A read of a buffer ends in an error only at an address the launch memory refuses (R57). -/
theorem State.read_eq_none_of_memRead_eq_error (s : State) (raced : Bool) (addr : Dword) {n i a : Nat}
    (h : s.memRead raced addr n i = .error a) : s.hostMem.read a = none := by
  induction n generalizing i with
  | zero => cases h
  | succ n ih =>
    rw [State.memRead] at h
    split at h
    next hbyte => cases h; exact (s.hostByte_eq_none_iff ..).1 hbyte
    next =>
      split at h
      next hrest => cases h; exact ih hrest
      next => cases h

/-- The scan of a text is refused only at an address the launch memory refuses (R57). -/
theorem State.read_eq_none_of_scanText_eq_refused (s : State) (raced : Bool) (addr : Dword) {n i a : Nat}
    (h : s.scanText raced addr n i = .refused a) : s.hostMem.read a = none := by
  induction n generalizing i with
  | zero => cases h
  | succ n ih =>
    rw [State.scanText] at h
    split at h
    next hbyte => cases h; exact (s.hostByte_eq_none_iff ..).1 hbyte
    next =>
      split at h
      next => cases h
      next =>
        cases hrest : s.scanText raced addr n (i + 1) <;> rw [hrest] at h <;> cases h
        exact ih hrest

/-- A next state, or stuck at an address the launch memory refuses: how a create command ends (R57, R215). -/
def State.EndsOrStuck (s : State) (r : Result) : Prop :=
  (∃ t, r = .next t) ∨ ∃ a, r = .fault (.stuck a) ∧ s.hostMem.read a = none

theorem execMsgCreateText_endsOrStuck (s : State) : s.EndsOrStuck (execMsgCreateText s) := by
  cases hlive : s.ctxLive
  · exact .inl ⟨_, withContext_of_dead hlive _⟩
  rw [execMsgCreateText_eq, withContext_live s _ hlive]
  split
  · split
    next hscan => exact .inr ⟨_, rfl, s.read_eq_none_of_scanText_eq_refused _ _ hscan⟩
    next => exact .inl ⟨_, rfl⟩
    next => exact .inl ⟨_, rfl⟩
  · exact .inl ⟨_, rfl⟩

theorem execMsgCreateBuf_endsOrStuck (s : State) : s.EndsOrStuck (execMsgCreateBuf s) := by
  cases hlive : s.ctxLive
  · exact .inl ⟨_, withContext_of_dead hlive _⟩
  rw [execMsgCreateBuf_eq, withContext_live s _ hlive]
  split
  · split
    next hread => exact .inr ⟨_, rfl, s.read_eq_none_of_memRead_eq_error _ _ hread⟩
    next => exact .inl ⟨_, rfl⟩
  · exact .inl ⟨_, rfl⟩

/-- The NoContext check stops nothing (R203). -/
theorem withContext_ends {s : State} {k : Result} (h : ∃ t, k = .next t) : ∃ t, withContext s k = .next t := by
  cases hlive : s.ctxLive
  · exact ⟨_, withContext_of_dead hlive k⟩
  · rwa [withContext_live s k hlive]

/-- The lookup of HANDLE stops nothing (R204). -/
theorem withMessage_ends {s : State} {k : Message → Result} (h : ∀ m, ∃ t, k m = .next t) :
    ∃ t, withMessage s k = .next t := by
  cases hm : s.msg? s.handle with
  | none => exact ⟨_, withMessage_none k hm⟩
  | some m => rw [withMessage_some k hm]; exact h m

/-- A command that reads no host memory answers a next state (R213). -/
theorem exec_ends {i : Instr} (htext : i ≠ .msgCreateText) (hbuf : i ≠ .msgCreateBuf) (s : State) :
    ∃ t, exec i s = .next t := by
  have readBack (hmem : i ∈ [Instr.msgGetState, .msgGetBitlen, .msgGetPadlen, .msgReadRaw, .msgReadPadded,
      .msgReadDigest, .ctxMsgCount, .ctxMsgAt]) : ∃ t, exec i s = .next t := by
    obtain ⟨e, r, hexec, -⟩ := readBack_next i s hmem
    exact ⟨_, hexec⟩
  cases i with
  | msgCreateText => exact absurd rfl htext
  | msgCreateBuf => exact absurd rfl hbuf
  | ctxCreate =>
    change ∃ t, execCtxCreate s = .next t
    unfold execCtxCreate
    split <;> exact ⟨_, rfl⟩
  | ctxDestroy => exact withContext_ends ⟨_, rfl⟩
  | msgDelete => exact withContext_ends (withMessage_ends fun _ => ⟨_, rfl⟩)
  | msgPreprocess =>
    refine withContext_ends (withMessage_ends fun m => ?_)
    cases m.phase with
    | raw =>
      dsimp only
      split <;> exact ⟨_, rfl⟩
    | preprocessed | digested => exact ⟨_, rfl⟩
  | msgDigest =>
    refine withContext_ends (withMessage_ends fun m => ?_)
    cases m.phase <;> exact ⟨_, rfl⟩
  | msgGetState | msgGetBitlen | msgGetPadlen | msgReadRaw | msgReadPadded | msgReadDigest | ctxMsgCount | ctxMsgAt =>
    exact readBack (by decide)

/-- Settles O6: the two create commands end or are stuck at a refused address, and every other command ends. -/
theorem onlyCreateCommandsCanStop : Obligations.OnlyCreateCommandsCanStop := by
  unfold Obligations.OnlyCreateCommandsCanStop
  intro i s
  by_cases htext : i = .msgCreateText
  · subst htext
    exact (execMsgCreateText_endsOrStuck s).imp_right fun stuck => ⟨.inl rfl, stuck⟩
  by_cases hbuf : i = .msgCreateBuf
  · subst hbuf
    exact (execMsgCreateBuf_endsOrStuck s).imp_right fun stuck => ⟨.inr rfl, stuck⟩
  exact .inl (exec_ends htext hbuf s)

/-- STATUS.ERR of a successful completion (R200, R201). -/
theorem State.complete_ok_err (s : State) (r : Dword) : (s.complete .ok r).err = 0 :=
  (statusWord_fields .ok s.ctxLive).1

/-- `t` is `s` but for STATUS, RESULT, which is 0, and the model's own counter of free values (R210, log entry 5). -/
def State.Raised (s t : State) : Prop := t = { s with status := t.status, result := 0, fresh := t.fresh }

theorem State.raised_complete (s : State) (e : ErrCode) : s.Raised (s.complete e 0) := rfl

theorem State.raised_spendFree_complete (s : State) (raced : Bool) (n : Nat) (e : ErrCode) :
    s.Raised ((s.spendFree raced n).complete e 0) := by
  cases raced <;> rfl

/-- A command succeeds, or changes nothing but STATUS and RESULT (R210): case by case along what each command can answer. -/
theorem exec_ok_or_raised {i : Instr} {s t : State} (h : exec i s = .next t) : t.err = 0 ∨ s.Raised t := by
  have readBack (hi : i ∈ [Instr.msgGetState, .msgGetBitlen, .msgGetPadlen, .msgReadRaw, .msgReadPadded,
      .msgReadDigest, .ctxMsgCount, .ctxMsgAt]) : t.err = 0 ∨ s.Raised t := by
    obtain ⟨e, r, hr, hzero⟩ := readBack_next i s hi
    cases hr.symm.trans h
    by_cases he : e = .ok
    · subst he; exact .inl (s.complete_ok_err r)
    · rw [hzero he]; exact .inr (s.raised_complete e)
  cases i with
  | ctxCreate =>
    obtain ⟨-, rfl⟩ | ⟨-, rfl⟩ := execCtxCreate_next h
    · exact .inr (s.raised_complete .alloc)
    · exact .inl (State.complete_ok_err ..)
  | ctxDestroy =>
    obtain ⟨-, rfl⟩ | ⟨-, rfl⟩ := execCtxDestroy_next h
    · exact .inl (State.complete_ok_err ..)
    · exact .inr (s.raised_complete .noContext)
  | msgCreateText =>
    obtain ⟨e, n, -, rfl⟩ | ⟨bytes, n, -, -, -, -, rfl⟩ := execMsgCreateText_next h
    · exact .inr (s.raised_spendFree_complete ..)
    · exact .inl (State.complete_ok_err ..)
  | msgCreateBuf =>
    obtain ⟨e, -, rfl⟩ | ⟨src, -, -, -, rfl⟩ := execMsgCreateBuf_next h
    · exact .inr (s.raised_complete e)
    · exact .inl (State.complete_ok_err ..)
  | msgDelete =>
    obtain ⟨e, -, rfl⟩ | ⟨-, -, rfl⟩ := execMsgDelete_next h
    · exact .inr (s.raised_complete e)
    · exact .inl (State.complete_ok_err ..)
  | msgPreprocess =>
    obtain ⟨e, rfl⟩ | ⟨m, -, -, -, -, rfl⟩ := execMsgPreprocess_next h
    · exact .inr (s.raised_complete e)
    · exact .inl (State.complete_ok_err ..)
  | msgDigest =>
    obtain ⟨e, rfl⟩ | ⟨m, P, buf, -, -, -, rfl⟩ := execMsgDigest_next h
    · exact .inr (s.raised_complete e)
    · exact .inl (State.complete_ok_err ..)
  | msgGetState | msgGetBitlen | msgGetPadlen | msgReadRaw | msgReadPadded | msgReadDigest | ctxMsgCount | ctxMsgAt =>
    exact readBack (by decide)

/-- Settles O28: a command that does not succeed has raised an error, and an illegal word always does. -/
theorem errorsChangeNothingElse : Obligations.ErrorsChangeNothingElse := by
  unfold Obligations.ErrorsChangeNothingElse
  intro v s t h herr
  obtain ⟨i, -, hi⟩ | ⟨-, hill⟩ := runWord_cases v s
  · exact (exec_ok_or_raised (hi ▸ h)).resolve_left herr
  · cases hill.symm.trans h
    exact s.raised_complete .illegal

/-- Every command but CTX_CREATE begins with the NoContext check (R203, R209 item 2). -/
theorem exists_exec_eq_withContext {i : Instr} (hi : i ≠ .ctxCreate) (s : State) :
    ∃ k, exec i s = withContext s k := by
  cases i with
  | ctxCreate => exact absurd rfl hi
  | ctxDestroy | msgCreateText | msgCreateBuf | msgDelete | msgPreprocess | msgDigest | msgGetState | msgGetBitlen
  | msgGetPadlen | msgReadRaw | msgReadPadded | msgReadDigest | ctxMsgCount | ctxMsgAt => exact ⟨_, rfl⟩

/-- Settles O27: the NoContext check comes first, and fails. -/
theorem noContextErrorBeforeEverythingElse : Obligations.NoContextErrorBeforeEverythingElse := by
  unfold Obligations.NoContextErrorBeforeEverythingElse
  intro i s hdead hi
  obtain ⟨k, hexec⟩ := exists_exec_eq_withContext hi s
  rw [hexec, withContext_of_dead hdead]

end Sys2Proof.Machine
end

section
/-! PROOFS. A step at a CMD write, and the idle step (spec/60_exceptions.md R213, spec/70_reset_and_hazards.md R221). -/

namespace Sys2Proof.Machine

/-- A word that decodes runs its command (R213). -/
theorem runWord_of_decode_ok {v : Word} {i : Instr} (h : decode v = .ok i) (s : State) : runWord v s = exec i s := by
  rw [eq_encode_of_decode h, runWord_encode]

/-- A write of CMD at offset 0 is the command cycle of the written word, the sequence marked as issued (R20, R21, R52). -/
theorem step_write_cmd {s : State} {agent : Nat} {v : Dword} {rest : List HostEvent}
    (hbus : s.bus = .write agent s.cfg.devBase 32 v :: rest)
    (hfree : ({ s with bus := rest } : State).intrudedOn agent = none) :
    step s = commandCycle (v.setWidth 32) { s with bus := rest, session := some ⟨agent, false, true⟩ } :=
  step_write_register (off := 0x00) (r := .cmd) (p := .whole) (by decide) rfl hbus hfree (by decide)

/-- Settles O4: the step is the command cycle of the written word, which runs the command the word decodes to or ILLEGAL. -/
theorem stepRunsTheDecodedCommand : Obligations.StepRunsTheDecodedCommand := by
  unfold Obligations.StepRunsTheDecodedCommand
  intro s agent v rest hbus hfree
  have cycle := step_write_cmd hbus hfree
  rw [commandCycle] at cycle
  refine ⟨cycle, fun i hi => ?_, fun e he => ?_⟩
  · rw [cycle, runWord_of_decode_ok hi]
  · rw [cycle, runWord_of_decode_error he, mapNext_next, State.complete_illegal]

/-- Settles O5: a step without an event answers the state it found. -/
theorem idleStepChangesNothing : Obligations.IdleStepChangesNothing := by
  unfold Obligations.IdleStepChangesNothing
  intro s hidle
  rw [step, hidle]

end Sys2Proof.Machine
end

section
/-! PROOFS. The create commands when a host store falls into their source buffer: each byte read is a free value
(spec/70_reset_and_hazards.md R237, spec/40_context.md R107, R108). -/

namespace Sys2Proof.Machine

/-- A byte of a raced buffer is a free value where its address is admitted (R237, U3). -/
theorem State.hostByte_raced {s : State} {addr : Dword} {i : Nat}
    (h : (s.hostMem.read ((addr.toNat + i) % 2 ^ s.cfg.hostAddrBits)).isSome = true) :
    s.hostByte true addr i = some (Config.freeByte (s.fresh + i)) := by
  obtain ⟨b, hb⟩ := Option.isSome_iff_exists.1 h
  simp only [State.hostByte, hostAddr, hb, if_true]

/-- The free values of a raced read of `n` bytes, numbered from the model's counter (log entry 5). -/
def State.freeBytes (s : State) (n : Nat) : List Byte := (List.range n).map fun i => Config.freeByte (s.fresh + i)

@[simp] theorem State.freeBytes_length (s : State) (n : Nat) : (s.freeBytes n).length = n := by
  simp [State.freeBytes]

@[simp] theorem State.freeBytes_getElem (s : State) (n i : Nat) (hi : i < (s.freeBytes n).length) :
    (s.freeBytes n)[i] = Config.freeByte (s.fresh + i) := by
  simp [State.freeBytes]

/-- A raced buffer whose addresses are admitted reads as free values (R237, R108). -/
theorem State.memRead_raced {s : State} {addr : Dword} {n : Nat}
    (hadmit : ∀ i < n, (s.hostMem.read ((addr.toNat + i) % 2 ^ s.cfg.hostAddrBits)).isSome = true) :
    s.memRead true addr n 0 = .ok (s.freeBytes n) :=
  s.memRead_of_hostByte true addr n 0 _ fun k hk => by rw [Nat.zero_add]; exact State.hostByte_raced (hadmit k hk)

/-- Settles O17: the raced buffer reads as free values, which are registered through `RawStore`. -/
theorem msgCreateBufRacedBytesAreFree : Obligations.MsgCreateBufRacedBytesAreFree := by
  unfold Obligations.MsgCreateBufRacedBytesAreFree
  intro s hlive hslot hleft hfit hraced hadmit
  change execMsgCreateBuf s = _
  rw [execMsgCreateBuf_eq, withContext_live s _ hlive, if_pos ((s.canAllocMsg_iff _).2 ⟨hslot, hleft, hfit⟩), hraced,
    State.memRead_raced hadmit, State.spendFree_raced]
  exact createMessage_of_live (s := { s with fresh := s.fresh + _ }) hlive _ _

/-- A store to a byte that the scan of host memory as it stands reaches races with the text (R237, log entry 5). -/
theorem State.textRaced_of_raced {s : State} {addr : Dword} {k : Nat} (hk : k ≤ s.cfg.maxRawBytes)
    (hbytes : ∀ i < k, ∃ b, s.hostMem.read ((addr.toNat + i) % 2 ^ s.cfg.hostAddrBits) = some b ∧ b ≠ 0)
    (hraced : s.raced addr (k + 1) = true) : s.textRaced addr = true := by
  refine s.raced_mono addr _ _ ?_ hraced
  rw [s.textReads_eq addr (s.cfg.maxRawBytes + 1) 0 k (by omega) fun j hj => by rw [Nat.zero_add]; exact hbytes j hj,
    show s.cfg.maxRawBytes + 1 - k = s.cfg.maxRawBytes - k + 1 by omega]
  exact Nat.add_le_add_left (s.textReads_pos ..) k

/-- Bytes with a 0x00 among them: those before the first one, which is next. -/
theorem exists_eq_takeWhile_append_zero {bytes : List Byte} (h : 0 ∈ bytes) :
    ∃ rest, bytes = bytes.takeWhile (fun b => b ≠ 0) ++ 0 :: rest := by
  obtain ⟨txt, rest, hsplit, htxt⟩ := List.eq_append_cons_of_mem h
  have nonzero : ∀ b ∈ txt, decide (b ≠ 0) = true := fun b hb => decide_eq_true fun h0 => htxt (h0 ▸ hb)
  refine ⟨rest, ?_⟩
  rw [hsplit, List.takeWhile_append_of_pos nonzero, List.takeWhile_cons_of_neg (by simp), List.append_nil]

/-- The scan of a raced text, of whose window `n` bytes are admitted: by whether a 0x00 is among their free values, and, if
not, by whether they are the whole window (R237, R107, R57). -/
theorem State.scanText_raced {s : State} {addr : Dword} {window n : Nat} (hn : n ≤ window)
    (hadmit : ∀ i < n, (s.hostMem.read ((addr.toNat + i) % 2 ^ s.cfg.hostAddrBits)).isSome = true)
    (hend : n < window → s.hostMem.read ((addr.toNat + n) % 2 ^ s.cfg.hostAddrBits) = none) :
    s.scanText true addr window 0 =
      if 0 ∈ s.freeBytes n then .text ((s.freeBytes n).takeWhile fun b => b ≠ 0)
      else if n = window then .unterminated
      else .refused (hostAddr s.cfg addr n) := by
  have byte (i : Nat) (hi : i < (s.freeBytes n).length) : s.hostByte true addr i = some (s.freeBytes n)[i] := by
    rw [s.freeBytes_getElem]
    exact State.hostByte_raced (hadmit i (by simpa using hi))
  split_ifs with hzero hwhole
  · obtain ⟨rest, hsplit⟩ := exists_eq_takeWhile_append_zero hzero
    have nonzero (b : Byte) (hb : b ∈ (s.freeBytes n).takeWhile fun b => b ≠ 0) : b ≠ 0 := by
      simpa using List.mem_takeWhile_imp hb
    generalize (s.freeBytes n).takeWhile (fun b => b ≠ 0) = txt at hsplit nonzero ⊢
    have hlen := congrArg List.length hsplit
    rw [s.freeBytes_length, List.length_append, List.length_cons] at hlen
    simp only [hsplit] at byte
    refine s.scanText_eq_text true addr (by omega) (fun i hi => ?_) nonzero ?_
    · rw [byte i (by simp; omega), List.getElem_append_left hi]
    · rw [byte txt.length (by simp), List.getElem_append_right (le_refl _)]
      simp
  all_goals
    have passed (i : Nat) (hi : i < n) : ∃ b, s.hostByte true addr i = some b ∧ b ≠ 0 :=
      ⟨_, byte i (by simpa using hi), fun h0 => hzero (h0 ▸ List.getElem_mem _)⟩
  · exact hwhole ▸ s.scanText_eq_unterminated true addr n passed
  · have hlt : n < window := lt_of_le_of_ne hn hwhole
    exact s.scanText_eq_refused true addr hlt passed ((s.hostByte_eq_none_iff ..).2 (hend hlt))

/-- Settles O59: the text is raced, and the command ends as the scan of its free values does. -/
theorem msgCreateTextRacedBytesAreFree : Obligations.MsgCreateTextRacedBytesAreFree := by
  unfold Obligations.MsgCreateTextRacedBytesAreFree
  rintro s k n hlive hslot hleft hk hbytes hraced hn hadmit hend _ _ rfl rfl
  change execMsgCreateText s = if 0 ∈ s.freeBytes n then _ else _
  rw [execMsgCreateText_eq, withContext_live s _ hlive, if_pos (s.slotFree_and_handleLeft_iff.2 ⟨hslot, hleft⟩),
    State.textRaced_of_raced hk hbytes hraced, State.scanText_raced hn hadmit hend, State.spendFree_raced]
  by_cases hzero : 0 ∈ s.freeBytes n
  · simp only [if_pos hzero, ← rawStore_text]
    exact createMessage_of_live (s := { s with fresh := s.fresh + _ }) hlive _ _
  simp only [if_neg hzero]
  by_cases hwhole : n = s.cfg.maxRawBytes + 1
  · simp only [if_pos hwhole]
    exact raise_alloc_of_live (s := { s with fresh := s.fresh + _ }) hlive
  · simp only [if_neg hwhole]
    rfl

end Sys2Proof.Machine
end

section
/-! PROOFS. An access of another agent inside an open command sequence (spec/70_reset_and_hazards.md R236). -/

namespace Sys2Proof.Machine

/-- CMD is reached at offset 0x00 alone (R20, R53). -/
theorem toNat_eq_zero_of_selectReg_cmd {off : BitVec 8} {width : Nat} {p : Part}
    (h : selectReg off width = some (.cmd, p)) : off.toNat = 0 := by
  by_contra h0
  unfold selectReg at h
  split at h
  · exact select32_ne_cmd h0 (congrArg Prod.fst (Option.some.inj h))
  split at h
  next halign =>
    by_cases h18 : off.toNat = 0x18
    · rw [h18] at h; cases h
    · rw [select64_eq halign.2 h0 h18] at h
      exact select32_ne_cmd h0 (congrArg Prod.fst (Option.some.inj h))
  next => cases h

/-- An access of CMD is one at DEV_BASE (R20). -/
theorem eq_devBase_of_isCommand {cfg : Config} {addr : Dword} {width : Nat} (h : isCommand cfg addr width = true) :
    addr = cfg.devBase := by
  unfold isCommand selectAccess at h
  cases hoff : blockOffset cfg addr with
  | none => rw [hoff] at h; cases h
  | some off =>
    rw [hoff] at h
    have hzero : off.toNat = 0 := by
      cases hsel : selectReg off width with
      | none => simp [hsel] at h
      | some rp =>
        obtain ⟨r, p⟩ := rp
        cases r
        case cmd => exact toNat_eq_zero_of_selectReg_cmd hsel
        all_goals simp [hsel] at h
    unfold blockOffset at hoff
    split at hoff
    next hin =>
      rw [← Option.some.inj hoff, BitVec.toNat_ofNat] at hzero
      exact BitVec.eq_of_toNat_eq (by omega)
    next => cases hoff

/-- The 32-bit access at DEV_BASE is one of CMD (R20). -/
theorem isCommand_devBase (cfg : Config) : isCommand cfg cfg.devBase 32 = true := by
  rw [isCommand, selectAccess_register (off := 0x00) (r := .cmd) (p := .whole) (by decide) rfl (by decide)]

/-- The offsets and widths of the accesses that reach STATUS or RESULT (R20, R53). -/
def outcomeAccesses : List (Nat × Nat) := [(0x04, 32), (0x20, 32), (0x20, 64), (0x24, 32)]

/-- Each access of STATUS or RESULT, whole or half, is one (R20). -/
theorem isOutcome_of_mem {cfg : Config} (halign : cfg.devBase.toNat % 0x100 = 0) {outcome : Nat × Nat}
    (hmem : outcome ∈ outcomeAccesses) :
    isOutcome cfg (cfg.devBase + BitVec.ofNat 64 outcome.1) outcome.2 = true := by
  have reach {off width : Nat} (r : Reg) (p : Part) (hr : r = .status ∨ r = .result) (hoff : off < 0x100)
      (hsel : selectReg (BitVec.ofNat 8 off) width = some (r, p)) :
      isOutcome cfg (cfg.devBase + BitVec.ofNat 64 off) width = true := by
    rw [isOutcome, selectAccess_register hoff (devBase_add_toNat halign hoff) hsel]
    rcases hr with rfl | rfl <;> rfl
  simp only [outcomeAccesses, List.mem_cons, List.not_mem_nil, or_false] at hmem
  rcases hmem with rfl | rfl | rfl | rfl
  · exact reach .status .whole (.inl rfl) (by decide) (by decide)
  · exact reach .result .low (.inr rfl) (by decide) (by decide)
  · exact reach .result .whole (.inr rfl) (by decide) (by decide)
  · exact reach .result .high (.inr rfl) (by decide) (by decide)

/-- A CMD write stays ahead behind any events without a reset. -/
theorem commandAhead_append {cfg : Config} {agent : Nat} {ahead after : List HostEvent}
    (hreset : ∀ a ∈ ahead, a ≠ .reset) (h : commandAhead cfg agent after = true) :
    commandAhead cfg agent (ahead ++ after) = true := by
  induction ahead with
  | nil => exact h
  | cons e ahead ih =>
    have rest := ih fun a ha => hreset a (List.mem_cons_of_mem _ ha)
    cases e with
    | reset => exact absurd rfl (hreset _ List.mem_cons_self)
    | write => exact Bool.or_eq_true_iff.2 (.inr rest)
    | read | store | racingStore => exact rest

/-- A read of STATUS or RESULT stays ahead behind any events without a reset and without a CMD write of the agent. -/
theorem outcomeReadAhead_append {cfg : Config} {agent : Nat} {ahead after : List HostEvent}
    (hreset : ∀ a ∈ ahead, a ≠ .reset)
    (hcmd : ∀ a d w u, HostEvent.write a d w u ∈ ahead → a ≠ agent ∨ d ≠ cfg.devBase)
    (h : outcomeReadAhead cfg agent after = true) : outcomeReadAhead cfg agent (ahead ++ after) = true := by
  induction ahead with
  | nil => exact h
  | cons e ahead ih =>
    have rest := ih (fun a ha => hreset a (List.mem_cons_of_mem _ ha))
      fun a d w u ha => hcmd a d w u (List.mem_cons_of_mem _ ha)
    cases e with
    | reset => exact absurd rfl (hreset _ List.mem_cons_self)
    | write a d w u =>
      have other : (a == agent && isCommand cfg d w) = false := by
        rw [Bool.and_eq_false_iff, beq_eq_false_iff_ne, ← Bool.not_eq_true]
        exact (hcmd a d w u List.mem_cons_self).imp_right fun hd hc => hd (eq_devBase_of_isCommand hc)
      rw [List.cons_append, outcomeReadAhead, other]
      exact rest
    | read => exact Bool.or_eq_true_iff.2 (.inr rest)
    | store | racingStore => exact rest

/-- A sequence with an operand written is open while its agent's CMD write is ahead (R236). -/
theorem Session.isOpen_of_command {x : Session} {cfg : Config} {ahead after : List HostEvent} {w : Dword}
    (hops : x.operandsWritten = true) (hreset : ∀ a ∈ ahead, a ≠ .reset) :
    x.isOpen cfg (ahead ++ .write x.agent cfg.devBase 32 w :: after) = true := by
  have command : commandAhead cfg x.agent (.write x.agent cfg.devBase 32 w :: after) = true := by
    simp [commandAhead, isCommand_devBase]
  simp [Session.isOpen, hops, commandAhead_append hreset command]

/-- A sequence with its command issued is open while its agent's read of an outcome of that command is ahead (R236). -/
theorem Session.isOpen_of_outcome {x : Session} {cfg : Config} {ahead after : List HostEvent} {outcome : Nat × Nat}
    (hissued : x.issued = true) (hreset : ∀ a ∈ ahead, a ≠ .reset)
    (hcmd : ∀ a d w u, HostEvent.write a d w u ∈ ahead → a ≠ x.agent ∨ d ≠ cfg.devBase)
    (halign : cfg.devBase.toNat % 0x100 = 0) (hmem : outcome ∈ outcomeAccesses) :
    x.isOpen cfg (ahead ++ .read x.agent (cfg.devBase + BitVec.ofNat 64 outcome.1) outcome.2 :: after) = true := by
  have read : outcomeReadAhead cfg x.agent
      (.read x.agent (cfg.devBase + BitVec.ofNat 64 outcome.1) outcome.2 :: after) = true := by
    simp [outcomeReadAhead, isOutcome_of_mem halign hmem]
  simp [Session.isOpen, hissued, outcomeReadAhead_append hreset hcmd read]

/-- A write or read of a register by another agent than the one whose sequence is open is refused (R236, R215). -/
theorem step_access_intruding {s : State} {agent : Nat} {addr v : Dword} {width off : Nat} {rest : List HostEvent}
    {r : Reg} {p : Part} {x : Session} (hoff : off < 0x100) (haddr : addr.toNat = s.cfg.devBase.toNat + off)
    (hbus : s.bus = .write agent addr width v :: rest ∨ s.bus = .read agent addr width :: rest)
    (hsel : selectReg (BitVec.ofNat 8 off) width = some (r, p)) (hses : s.session = some x) (hother : x.agent ≠ agent)
    (hopen : x.isOpen s.cfg rest = true) : step s = .refused (.interleaved x.agent agent) := by
  have hacc := selectAccess_register hoff haddr hsel
  have intruded : ({ s with bus := rest } : State).intrudedOn agent = some x.agent := by
    simp [State.intrudedOn, hses, hother, hopen]
  rcases hbus with hbus | hbus <;> rw [step, hbus]
  · simp only [hostEvent, hostWrite, hacc, intruded]
  · simp only [hostEvent, hostRead, hacc, intruded]

/-- Settles O51: in both parts of the interval the sequence is open over the events to come, so the access intrudes. -/
theorem interleavedAccessesAreRefused : Obligations.InterleavedAccessesAreRefused := by
  unfold Obligations.InterleavedAccessesAreRefused
  rintro s _ intruder addr v width off ahead after x e hoff haddr hdef he hses rfl hother hreset halign hinterval
  obtain ⟨⟨r, p⟩, hsel⟩ := Option.ne_none_iff_exists'.1 fun h => (selectReg_eq_none_iff hoff).1 h hdef
  obtain ⟨rest, hbus, hopen⟩ : ∃ rest, s.bus = e :: rest ∧ x.isOpen s.cfg rest = true := by
    obtain ⟨hops, w, hbus⟩ | ⟨hissued, hcmd, outcome, hmem, hbus⟩ := hinterval
    · exact ⟨_, hbus, Session.isOpen_of_command hops hreset⟩
    · exact ⟨_, hbus, Session.isOpen_of_outcome hissued hreset hcmd halign hmem⟩
  exact step_access_intruding hoff haddr (he.imp (· ▸ hbus) (· ▸ hbus)) hsel hses hother.symm hopen

end Sys2Proof.Machine
end

section
/-! PROOFS. While one agent makes every access, no run is refused (spec/70_reset_and_hazards.md R236,
spec/60_exceptions.md R219). -/

namespace Sys2Proof.Machine

/-- An access by the agent, or no access of the register block. -/
def HostEvent.IsBy (agent : Nat) : HostEvent → Prop
  | .write a _ _ _ => a = agent
  | .read a _ _ => a = agent
  | .store _ _ => True
  | .racingStore _ _ => True
  | .reset => True

/-- One agent makes every access still to come, and no sequence but its own is in progress. -/
structure State.SingleAgent (agent : Nat) (s : State) : Prop where
  bus : ∀ e ∈ s.bus, e.IsBy agent
  session : OwnSequence agent s.session

/-- An answer that is no refusal and leaves one agent alone at the block. -/
def KeepsSingleAgent (agent : Nat) : Result → Prop
  | .next t => t.SingleAgent agent
  | .fault _ => True
  | .refused _ => False

/-- A CMD word is never refused: every command has a meaning (R213). -/
theorem runWord_next_or_fault (v : Word) (s : State) : (∃ t, runWord v s = .next t) ∨ ∃ f, runWord v s = .fault f := by
  obtain ⟨i, -, hi⟩ | ⟨-, hill⟩ := runWord_cases v s
  · rw [hi]
    exact (onlyCreateCommandsCanStop i s).imp_right fun ⟨_, a, hstuck, _⟩ => ⟨_, hstuck⟩
  · exact .inl ⟨_, hill⟩

/-- The effect of a defined write leaves the events to come and the sequence as they are (R21, R51). -/
theorem State.SingleAgent.writeEffect {agent : Nat} {s : State} (h : s.SingleAgent agent) (r : Reg) (p : Part)
    (v : Dword) : KeepsSingleAgent agent (s.writeEffect r p v) := by
  by_cases hr : r = .cmd
  · subst hr
    change KeepsSingleAgent agent (mapNext State.landStores (runWord (v.setWidth 32) s))
    obtain ⟨t, ht⟩ | ⟨f, hf⟩ := runWord_next_or_fault (v.setWidth 32) s
    · have frame := runWord_sameHostSide ht
      rw [ht]
      exact ⟨frame.bus ▸ h.bus, frame.session ▸ h.session⟩
    · rw [hf]; trivial
  · rw [writeEffect_eq_writeReg s hr]
    exact ⟨s.writeReg_bus r p v ▸ h.bus, s.writeReg_session r p v ▸ h.session⟩

/-- A write by the single agent enters nobody else's sequence. -/
theorem State.SingleAgent.hostWrite {agent : Nat} {s : State} (h : s.SingleAgent agent) (addr : Dword) (width : Nat)
    (v : Dword) : KeepsSingleAgent agent (hostWrite agent addr width v s) := by
  unfold Machine.hostWrite
  rw [State.intrudedOn_of_ownSequence h.session]
  split
  · exact h
  · trivial
  next r p _ =>
    exact State.SingleAgent.writeEffect (s := { s with session := sessionAfter agent r s.session })
      ⟨h.bus, h.session.sessionAfter r⟩ r p v

/-- A read by the single agent enters nobody else's sequence. -/
theorem State.SingleAgent.hostRead {agent : Nat} {s : State} (h : s.SingleAgent agent) (addr : Dword) (width : Nat) :
    KeepsSingleAgent agent (hostRead agent addr width s) := by
  unfold Machine.hostRead
  rw [State.intrudedOn_of_ownSequence h.session]
  split
  · exact h
  · trivial
  · exact ⟨h.bus, h.session⟩

/-- Every step keeps one agent alone at the block, and none is refused: case by case along the next event. -/
theorem State.SingleAgent.step {agent : Nat} {s : State} (h : s.SingleAgent agent) : KeepsSingleAgent agent (step s) := by
  unfold Machine.step
  cases hbus : s.bus with
  | nil => exact h
  | cons e rest =>
    obtain ⟨he, hrest⟩ := List.forall_mem_cons.1 (hbus ▸ h.bus)
    have later : ({ s with bus := rest } : State).SingleAgent agent := ⟨hrest, h.session⟩
    cases e with
    | write a addr width v => cases he; exact later.hostWrite addr width v
    | read a addr width => cases he; exact later.hostRead addr width
    | store | racingStore => exact ⟨hrest, h.session⟩
    | reset => exact ⟨hrest, fun _ hnone => nomatch hnone⟩

/-- A run ends at a step that answers no next state, with that step's answer. -/
theorem run_succ_of_stop (M : Host.Core) (n : Nat) {s : M.State} (h : ∀ t, M.step s ≠ .next t) :
    M.run (n + 1) s = M.step s := by
  rw [Host.Core.run]
  cases hstep : M.step s with
  | next t => exact absurd hstep (h t)
  | fault | refused => rfl

/-- No run of any length is refused while one agent is alone at the block: by induction on its steps. -/
theorem State.SingleAgent.run {agent : Nat} {s : State} (h : s.SingleAgent agent) (n : Nat) :
    KeepsSingleAgent agent (Sys2Proof.core.run n s) := by
  induction n generalizing s with
  | zero => exact h
  | succ n ih =>
    have kept := h.step
    by_cases hnext : ∃ t, Machine.step s = .next t
    · obtain ⟨t, ht⟩ := hnext
      rw [ht] at kept
      rw [run_succ_of_step Sys2Proof.core n ht]
      exact ih kept
    · rw [run_succ_of_stop Sys2Proof.core n fun t ht => hnext ⟨t, ht⟩]
      exact kept

/-- Settles O52: the events and the sequence are one agent's at the start, so the run is not refused. -/
theorem aSingleAgentIsNeverRefused : Obligations.ASingleAgentIsNeverRefused := by
  unfold Obligations.ASingleAgentIsNeverRefused
  intro s agent n r hwrites hreads hses hrefused
  have single : s.SingleAgent agent := by
    refine ⟨fun e he => ?_, hses⟩
    cases e with
    | write a d w u => exact hwrites a d w u he
    | read a d w => exact hreads a d w he
    | store | racingStore | reset => trivial
  have kept := single.run n
  rw [hrefused] at kept
  exact kept

end Sys2Proof.Machine
end
